-- ==== Sys2Proof/Word.lean ====
section
/-! DEFINITION. The word types of the SPN core (spec 00_scope.md R6, R7, R12, R13). -/

namespace Sys2Proof

/-- A Bit of the source: one wire or one flip-flop, so no value outside {0,1} exists (R12). -/
abbrev Bit := Bool

/-- A Bit Sequence: an ordered list of Bits of arbitrary length, first bit at the head (R7). -/
abbrev Bits := List Bit

/-- A command word `cw[7:0]` (R61). -/
abbrev CommandWord := BitVec 8

/-- A key as the `key_in` port and the `KEY` register carry it: `KEYW` = 128 bits (R5, R13). -/
abbrev KeyWord := BitVec 128

/-- Four bits: an S-table index or entry (`SGRP` = `ENTW` = 4, R5). -/
abbrev Nibble := BitVec 4

/-- Eight bits: a full P group or the mask (`PGRP` = `MASKW` = 8, R5). -/
abbrev Octet := BitVec 8

end Sys2Proof
end

