-- ==== Sys2Proof/Syntax.lean ====
section
/-! DEFINITION. The command set SPN-CMD 1.0 (spec 30_encoding.md R62, R63): one constructor per row of
spec/opcode_table.json. The key of a START is no field of the command: it is not in the 8-bit word but on the
`key_in` port of the same step (R64). -/

namespace Sys2Proof

/-- The five operations a START opens (R63). -/
inductive Op where
  | ssubf
  | ssubi
  | pmix
  | enc
  | dec
  deriving DecidableEq, Repr

/-- The eight commands (R62). -/
inductive Instr where
  /-- `NOP`, the 64 words `00xxxxxx` (R138). -/
  | nop
  /-- `START.SSUBF` (R85). -/
  | startSsubf
  /-- `START.SSUBI` (R86). -/
  | startSsubi
  /-- `START.PMIX` (R106). -/
  | startPmix
  /-- `START.ENC` (R123). -/
  | startEnc
  /-- `START.DEC` (R124). -/
  | startDec
  /-- `BIT b` (R143). -/
  | bit (b : Bit)
  /-- `END` (R144). -/
  | endCmd
  deriving DecidableEq, Repr

/-- The START command of an operation (R62, R63). -/
def Op.start : Op → Instr
  | .ssubf => .startSsubf
  | .ssubi => .startSsubi
  | .pmix => .startPmix
  | .enc => .startEnc
  | .dec => .startDec

end Sys2Proof
end

