-- ==== Sys2Proof/Decode.lean ====
section
/-! DEFINITION. The decoder of a command word, total on any byte and rejecting by name (spec 30_encoding.md R61,
R66, R68), then the encoder, written from the same table (R62). -/

namespace Sys2Proof

/-- Why a word selects no row of the opcode table (R66). -/
inductive IllegalWord where
  /-- Format S with `cw[5:3] != 000`. -/
  | startReservedBits
  /-- Format S with `cw[2:0]` one of `011`, `110`, `111`. -/
  | startReservedOp
  /-- Format B with `cw[5:1] != 00000`. -/
  | bitReservedBits
  /-- Format E with `cw[5:0] != 000000`. -/
  | endReservedBits
  deriving DecidableEq, Repr

/-- `KIND = cw[7:6]` (R61). -/
def kindField (w : CommandWord) : BitVec 2 := w.extractLsb' 6 2

/-- `op = cw[2:0]` of format S, an unsigned code (R61, R64). -/
def opField (w : CommandWord) : BitVec 3 := w.extractLsb' 0 3

/-- `cw[5:3]`, zero in every legal word of format S (R61). -/
def startReserved (w : CommandWord) : BitVec 3 := w.extractLsb' 3 3

/-- `cw[5:1]`, zero in every legal word of format B (R61). -/
def bitReserved (w : CommandWord) : BitVec 5 := w.extractLsb' 1 5

/-- `cw[5:0]`, zero in the legal word of format E (R61). -/
def endReserved (w : CommandWord) : BitVec 6 := w.extractLsb' 0 6

/-- `b = cw[0]` of format B (R65). -/
def bitField (w : CommandWord) : Bit := w.getLsbD 0

/-- Decoding of any byte (R68). -/
def decode (w : CommandWord) : Except IllegalWord Instr :=
  if kindField w = 0b00#2 then .ok .nop
  else if kindField w = 0b01#2 then
    if startReserved w ≠ 0b000#3 then .error .startReservedBits
    else if opField w = 0b000#3 then .ok .startSsubf
    else if opField w = 0b001#3 then .ok .startSsubi
    else if opField w = 0b010#3 then .ok .startPmix
    else if opField w = 0b100#3 then .ok .startEnc
    else if opField w = 0b101#3 then .ok .startDec
    else .error .startReservedOp
  else if kindField w = 0b10#2 then
    if bitReserved w ≠ 0b00000#5 then .error .bitReservedBits else .ok (.bit (bitField w))
  else if endReserved w ≠ 0b000000#6 then .error .endReservedBits else .ok .endCmd

/-- The word of a command (R62); of the 64 words of `NOP`, the canonical one (R67). -/
def encode : Instr → CommandWord
  | .nop => 0x00#8
  | .startSsubf => 0x40#8
  | .startSsubi => 0x41#8
  | .startPmix => 0x42#8
  | .startEnc => 0x44#8
  | .startDec => 0x45#8
  | .bit b => 0x80#8 ||| (BitVec.ofBool b).setWidth 8
  | .endCmd => 0xC0#8

/-- The bits of the word that the decoder looks at to tell this very command: all eight, but for the six ignored
bits of a `NOP` (R61, R67). -/
def significantBits : Instr → CommandWord
  | .nop => 0xC0#8
  | .startSsubf => 0xFF#8
  | .startSsubi => 0xFF#8
  | .startPmix => 0xFF#8
  | .startEnc => 0xFF#8
  | .startDec => 0xFF#8
  | .bit _ => 0xFF#8
  | .endCmd => 0xFF#8

/-- The eight rows of the opcode table as (match, mask): a word `w` selects a row when `w &&& mask = match` (R62). -/
def opcodeRows : List (CommandWord × CommandWord) :=
  [(0x00#8, 0xC0#8), (0x40#8, 0xFF#8), (0x41#8, 0xFF#8), (0x42#8, 0xFF#8), (0x44#8, 0xFF#8), (0x45#8, 0xFF#8),
   (0x80#8, 0xFE#8), (0xC0#8, 0xFF#8)]

/-- The rows a word selects (R62); an illegal word selects none (R66). -/
def selectedRows (w : CommandWord) : List (CommandWord × CommandWord) :=
  opcodeRows.filter fun r => w &&& r.2 = r.1

/-- The word an opcode-table row's bits stand for: a command is one 8-bit word (R61, R70). -/
def tableWord (nbits w : Nat) : CommandWord := BitVec.ofNat 8 (w % 2 ^ nbits)

/-- What the decoder reads from a word numbered as spec/opcode_table.json numbers it. -/
def decodeTableWord (nbits w : Nat) : Option Instr :=
  match decode (tableWord nbits w) with
  | .ok i => some i
  | .error _ => none

end Sys2Proof
end

