-- ==== Sys2Proof/Config.lean ====
section
/-! DEFINITION. What one build of the core fixes: the contents of the two S-tables (spec 00_scope.md R5, R14;
20_memory.md R41; 92_eei_decisions.md D8). The spec leaves the 32 entries OPEN (91_not_in_source.md N1). -/

namespace Sys2Proof

/-- An S-Table: a fixed 4 by 4 mapping from (row, column) to a 4-bit value (R14); the outer index is the row. -/
abbrev STable := Vector (Vector Nibble 4) 4

/-- The two tables of one core, the encode table `S_ENC` and the decode table `S_DEC` (R14, R41). -/
structure Tables where
  enc : STable
  dec : STable
  deriving DecidableEq, Repr

/-- The encode table of the build: an OPEN parameter (R5, D8). It has no body to evaluate, so no proof can rest on
an entry of it (DESIGN CHOICE, safe: claims hold for every table). Log entry 1. -/
opaque Config.sEnc : STable

/-- The decode table of the build: an OPEN parameter (R5, D8), independent of `Config.sEnc` (R91; DESIGN CHOICE, safe).
Log entry 1. -/
opaque Config.sDec : STable

end Sys2Proof
end

