-- ==== Sys2Proof/Machine/State.lean ====
section
/-! DEFINITION. The state of one SPN core: the nine registers of spec 10_state.md R20, the two ROMs of
20_memory.md R41, the ports of 30_encoding.md R60, and two fields of the MODEL's own, what the host has yet to drive
(`pending`) and what the core has answered so far (`sent`). -/

namespace Sys2Proof.Machine

/-- What the host drives on the input pins in one clock cycle (R60). -/
structure Cycle where
  /-- `rst`: synchronous reset, active high (R195). -/
  rst : Bool
  /-- `cmd_valid`: a command is presented in this cycle. -/
  cmdValid : Bool
  /-- `cw[7:0]`: the command word. -/
  cw : CommandWord
  /-- `key_in[127:0]`: the key operand, read by a START only (R64). -/
  keyIn : KeyWord
  deriving DecidableEq, Repr

/-- A cycle in which the host presents nothing: `rst` = `cmd_valid` = 0 (R60). -/
def Cycle.idle : Cycle := { rst := false, cmdValid := false, cw := 0#8, keyIn := 0#128 }

/-- The response `(q, done)` of a command step (R69). -/
structure Response where
  /-- `q`, the bits the step emitted, in order. -/
  bits : Bits
  /-- `done`, 1 only for an accepted END. -/
  done : Bool
  deriving DecidableEq, Repr

/-- The response with nothing in it: no bits and `done` = 0, so that `out_valid` = 0 (R69, R195). -/
def Response.none : Response := { bits := [], done := false }

/-- Why the machine stops. Neither hardware fault of the spec stops it: `IllegalCommand` and `SequenceError` set a
sticky flag and the core keeps running (R174; DEDUCED, safe). Log entry 5. -/
inductive Fault where
  /-- Raised by an accepted `BIT` or `END` in a state whose `OP` holds `011`, `110` or `111`: the spec gives these no
  effect because `OP` never holds them (R25, R32(d)). DEDUCED, safe: no state a run from reset reaches raises it. Log entry 7. -/
  | reservedOperation
  deriving DecidableEq, Repr

/-- Why an instruction has no meaning. -/
inductive Refusal where
  /-- Raised by an arm of `exec` for a command without a meaning yet; no arm raises it in this model; safe. -/
  | notModelled (mnemonic : String)
  deriving DecidableEq, Repr

/-- The state of one core. -/
structure State where
  /-- `OP[2:0]`, the operation of the open transaction (R25). -/
  op : BitVec 3
  /-- `KEY[127:0]`, the key of the open transaction (R26). -/
  key : KeyWord
  /-- `BUSY`, 1 while a transaction is open (R24). -/
  busy : Bool
  /-- `ILLOP`, sticky: an illegal command word was seen (R24, R171). -/
  illop : Bool
  /-- `SEQERR`, sticky: a legal command arrived out of sequence (R24, R172). -/
  seqerr : Bool
  /-- `SACC[3:0]`, the bits of the S group being filled, right-justified (R21). -/
  sacc : Nibble
  /-- `SCNT[1:0]`, the number of bits in `SACC` (R22). -/
  scnt : BitVec 2
  /-- `PACC[7:0]`, the bits of the P group being filled, right-justified (R21). -/
  pacc : Octet
  /-- `PCNT[2:0]`, the number of bits in `PACC` (R22). -/
  pcnt : BitVec 3
  /-- The ROMs `S_ENC` and `S_DEC`: constant contents, no write port (R41). Held here, read only, so that a state can
  be written out with tables that have entries (DESIGN CHOICE, safe). Log entry 1. -/
  rom : Tables
  /-- The response port as it stands in the cycle after the last one: its pins are `State.outPins` (R69;
  DEDUCED, safe). Log entry 4. -/
  resp : Response
  /-- The input pin `key_in` as it stands in the step of a command (R60, R64; DESIGN CHOICE, safe). Log entry 3. -/
  keyIn : KeyWord
  /-- MODEL: the cycles the host has yet to drive, next one first (DESIGN CHOICE, safe). Log entry 2. -/
  pending : List Cycle
  /-- MODEL: the responses of the command steps so far, oldest first (R69, R136; 93 U14; DESIGN CHOICE, safe).
  Log entry 4. -/
  sent : List Response
  deriving DecidableEq, Repr

/-- The machine right after reset (R30, R195): all nine registers zero and no response on the port. The ROMs hold the
build's tables, the host has nothing queued and nothing has been answered (log entries 1 to 4). Before a reset there is
no state of the model (R197, log entry 6). -/
def State.reset : State where
  op := 0b000#3
  key := 0#128
  busy := false
  illop := false
  seqerr := false
  sacc := 0b0000#4
  scnt := 0b00#2
  pacc := 0x00#8
  pcnt := 0b000#3
  rom := { enc := Config.sEnc, dec := Config.sDec }
  resp := Response.none
  keyIn := 0#128
  pending := []
  sent := []

end Sys2Proof.Machine
end

