-- ==== Sys2Proof/Machine/Flags.lean ====
section
/-! DEFINITION. Every flag computation of the spec: the three flags and who sets them, the read-only `status` port and
the order of checks (spec 10_state.md R24, R27; 43_stream_commands.md R135; 60_exceptions.md R170, R176). No data
operation writes a flag (R24). -/

namespace Sys2Proof.Machine

/-- The two hardware faults (R170). -/
inductive HwFault where
  /-- Code 1: a command word that matches no opcode row (R171). -/
  | illegalCommand
  /-- Code 2: a legal command out of sequence (R172). -/
  | sequenceError
  deriving DecidableEq, Repr

/-- The code of a fault, which is the bit position of its flag in `status` (R170). -/
def HwFault.code : HwFault → Nat
  | .illegalCommand => 1
  | .sequenceError => 2

/-- `ILLOP` after a fault is raised: set by `IllegalCommand`, else as it was (R171). -/
def illopAfter (f : HwFault) (s : State) : Bool :=
  match f with
  | .illegalCommand => true
  | .sequenceError => s.illop

/-- `SEQERR` after a fault is raised: set by `SequenceError`, else as it was (R172). -/
def seqerrAfter (f : HwFault) (s : State) : Bool :=
  match f with
  | .illegalCommand => s.seqerr
  | .sequenceError => true

/-- The sequence check of a START: accepted while no transaction is open (R135). -/
def startAccepted (s : State) : Bool := !s.busy

/-- The sequence check of a BIT or an END: accepted while a transaction is open (R135). -/
def dataAccepted (s : State) : Bool := s.busy

/-- The `status[2:0]` port, `{SEQERR, ILLOP, BUSY}` (R27). -/
def statusPort (s : State) : BitVec 3 :=
  BitVec.ofBool s.seqerr ++ (BitVec.ofBool s.illop ++ BitVec.ofBool s.busy)

end Sys2Proof.Machine
end

