-- ==== Sys2Proof/Machine/Operands.lean ====
section
/-! DEFINITION. Every operand form of the command set: the operation code of a START, its key, the mask, the data
bit's place in an accumulator, the group a flush takes (spec 30_encoding.md R63, R64, R65; 41_pblock.md R100). -/

namespace Sys2Proof.Machine

/-- The code of an operation, as `cw[2:0]` carries it and `OP` holds it (R63). -/
def opCode : Op → BitVec 3
  | .ssubf => 0b000#3
  | .ssubi => 0b001#3
  | .pmix => 0b010#3
  | .enc => 0b100#3
  | .dec => 0b101#3

/-- The operation of a code; none for the three reserved codes (R25, R63). -/
def opOfCode (c : BitVec 3) : Option Op :=
  if c = 0b000#3 then some .ssubf
  else if c = 0b001#3 then some .ssubi
  else if c = 0b010#3 then some .pmix
  else if c = 0b100#3 then some .enc
  else if c = 0b101#3 then some .dec
  else none

/-- The key operand of a START: `key_in[127:0]`, taken in the step of the command word (R64). -/
def keyOperand (s : State) : KeyWord := s.keyIn

/-- `MASK = KEY[7:0]`, the only part of `KEY` that is ever read (R26, R100). -/
def maskOf (s : State) : Octet := s.key.extractLsb' 0 8

/-- `{SACC[2:0], b}`: the S accumulator with a new bit shifted in at bit 0 (R139). -/
def saccWith (s : State) (b : Bit) : Nibble := (s.sacc.extractLsb' 0 3).concat b

/-- `{PACC[6:0], b}`: the P accumulator with a new bit shifted in at bit 0 (R141). -/
def paccWith (s : State) (b : Bit) : Octet := (s.pacc.extractLsb' 0 7).concat b

end Sys2Proof.Machine
end

