-- ==== Sys2Proof/Machine/Bits.lean ====
section
/-! DEFINITION. The Number/Bit conversions of the source and the sub-sequence notation (spec 00_scope.md R7, R8,
R9). They fix the bit order of every group: first bit most significant (20_memory.md R42). -/

namespace Sys2Proof.Machine

/-- `b2n(g)` (`bits_to_number`): shift left and OR in the next bit, in sequence order (R8). The spec
uses it for at most 8 bits; the same fold is taken for more (DEDUCED, safe). Log entry 11. -/
def b2n (g : Bits) : Nat := g.foldl (fun acc b => (acc <<< 1) ||| b.toNat) 0

/-- `n2b(x, w)` (`number_to_bits`): exactly `w` bits in big-endian order; the bits of `x` at positions `w` and
above are dropped (R9); for a width above 8 the same rule is taken (DEDUCED, safe). Log entry 11. -/
def n2b (x w : Nat) : Bits := (List.range w).map fun i => x.testBit (w - 1 - i)

/-- The sub-sequence `s[i..j)` of elements `i` to `j-1` (R7). -/
def slice (s : Bits) (i j : Nat) : Bits := (s.drop i).take (j - i)

/-- Element by element exclusive OR of two sequences of one length (R6, R7). -/
def xorBits (s t : Bits) : Bits := List.zipWith xor s t

end Sys2Proof.Machine
end

