-- ==== Sys2Proof/Machine/Rom.lean ====
section
/-! DEFINITION. Reading the two read-only tables (spec 20_memory.md R41, 40_sblock.md R81). -/

namespace Sys2Proof.Machine

/-- The row index of a 4-bit index: `a[3:2]` (R41). -/
def rowOf (a : Nibble) : BitVec 2 := a.extractLsb' 2 2

/-- The column index of a 4-bit index: `a[1:0]` (R41). -/
def colOf (a : Nibble) : BitVec 2 := a.extractLsb' 0 2

/-- `RomRead(T, a) = T[row][col]` with `a = 4*row + col` (R41). -/
def romRead (T : STable) (a : Nibble) : Nibble :=
  (T.get ⟨(rowOf a).toNat, (rowOf a).isLt⟩).get ⟨(colOf a).toNat, (colOf a).isLt⟩

/-- The table with the sixteen entries `f a`, laid out by row and column (R14). -/
def tableOf (f : Nibble → Nibble) : STable :=
  Vector.ofFn fun r => Vector.ofFn fun c => f (BitVec.ofNat 4 (4 * r.val + c.val))

end Sys2Proof.Machine
end

