-- ==== Sys2Proof/Machine/SBlock.lean ====
section
/-! DEFINITION. Layers 1 and 2 of the S-block substitution stage (spec 40_sblock.md R80 to R84). -/

namespace Sys2Proof.Machine

/-- `sbox4(T, v)`, the combinational lookup (R82). -/
def sbox4 (T : STable) (v : Nibble) : Nibble := romRead T v

/-- `apply_s_block(s, T)`: every full group of 4 bits is looked up, a shorter last group is dropped (R83, R84). -/
def applySBlock (s : Bits) (T : STable) : Bits :=
  (List.range (s.length / 4)).flatMap fun j =>
    n2b (sbox4 T (BitVec.ofNat 4 (b2n (slice s (4 * j) (4 * j + 4))))).toNat 4

end Sys2Proof.Machine
end

