-- ==== Sys2Proof/Machine/Ops.lean ====
section
/-! DEFINITION. The named operations over the registers and ports that every meaning is written with: answering,
raising a fault, reset, opening and closing a transaction, and the S and P units (spec 43_stream_commands.md R136,
R137, R139 to R142; 60_exceptions.md R171, R172, R177; 70_reset_and_hazards.md R195). -/

namespace Sys2Proof.Machine

/-- The step answers `(q, done)`: the port shows it in the next cycle and it joins the responses so far (R69, R136). -/
def State.respond (q : Bits) (done : Bool) (s : State) : State :=
  { s with resp := { bits := q, done := done }, sent := s.sent ++ [{ bits := q, done := done }] }

/-- A cycle that follows no command: the port shows no response (R69). Nothing else changes (R135). -/
def State.noResponse (s : State) : State := { s with resp := Response.none }

/-- TAKING A FAULT, for both hardware faults: its sticky flag is set, the response is `([], 0)`, nothing else changes.
It saves nothing and transfers control nowhere (R171, R172, R177). THE RETURN from it does not exist: no command clears
a flag, only reset does (R178). -/
def State.raise (f : HwFault) (s : State) : State :=
  ({ s with illop := illopAfter f s, seqerr := seqerrAfter f s }).respond [] false

/-- A cycle with `rst = 1`: every register takes its reset value and the port shows no response (R30, R195). The ROMs
are not affected; responses already given stand (R196). -/
def State.resetRegisters (s : State) : State :=
  { State.reset with rom := s.rom, keyIn := s.keyIn, pending := s.pending, sent := s.sent }

/-- The common part of an accepted START (R137): `OP` and `KEY` are loaded, the accumulators cleared, `BUSY` set. -/
def State.openTransaction (op : BitVec 3) (key : KeyWord) (s : State) : State :=
  { s with op := op, key := key, sacc := 0#4, scnt := 0#2, pacc := 0#8, pcnt := 0#3, busy := true }

/-- `BUSY <- 0` (R144). -/
def State.closeTransaction (s : State) : State := { s with busy := false }

/-- The S unit's two registers written together (R139, R140). -/
def State.setS (acc : Nibble) (cnt : BitVec 2) (s : State) : State := { s with sacc := acc, scnt := cnt }

/-- The P unit's two registers written together (R141, R142). -/
def State.setP (acc : Octet) (cnt : BitVec 3) (s : State) : State := { s with pacc := acc, pcnt := cnt }

/-- `S_push(T, b)`: the fourth bit of a group looks it up and releases 4 bits (R139). -/
def sPush (T : STable) (b : Bit) (s : State) : Bits × State :=
  if s.scnt = 3#2 then (n2b (romRead T (saccWith s b)).toNat 4, s.setS 0#4 0#2)
  else ([], s.setS (saccWith s b) (s.scnt + 1#2))

/-- `S_flush()`: up to 3 waiting bits are discarded (R140). -/
def sFlush (s : State) : Bits × State := ([], s.setS 0#4 0#2)

/-- `P_push(b)`: the eighth bit of a group mixes it and releases 8 bits (R141). -/
def pPush (b : Bit) (s : State) : Bits × State :=
  if s.pcnt = 7#3 then (n2b (paccWith s b ^^^ maskOf s).toNat 8, s.setP 0#8 0#3)
  else ([], s.setP (paccWith s b) (s.pcnt + 1#3))

/-- `P_flush()`: the waiting bits leave as a short last group of their own width (R142). -/
def pFlush (s : State) : Bits × State :=
  (if s.pcnt = 0#3 then [] else n2b (s.pacc ^^^ maskOf s).toNat s.pcnt.toNat, s.setP 0#8 0#3)

/-- For each `x` of a sequence, in order, `emit(S_push(T, x))` (R143, R144). -/
def sFeed (T : STable) : Bits → State → Bits × State
  | [], s => ([], s)
  | x :: xs, s => ((sPush T x s).1 ++ (sFeed T xs (sPush T x s).2).1, (sFeed T xs (sPush T x s).2).2)

/-- For each `x` of a sequence, in order, `emit(P_push(x))` (R143). -/
def pFeed : Bits → State → Bits × State
  | [], s => ([], s)
  | x :: xs, s => ((pPush x s).1 ++ (pFeed xs (pPush x s).2).1, (pFeed xs (pPush x s).2).2)

end Sys2Proof.Machine
end

