-- ==== Sys2Proof/Machine/Start.lean ====
section
/-! DEFINITION. The meanings of the five START commands, format S (spec 43_stream_commands.md R135, R137;
40_sblock.md R85, R86; 41_pblock.md R106; 42_spn_compose.md R123, R124). -/

namespace Sys2Proof.Machine

/-- `START(op)`: refused with `SequenceError` while a transaction is open (R172), else R137. It emits nothing. -/
def startCommon (op : Op) (s : State) : Host.Outcome State Fault Refusal :=
  if startAccepted s then .next ((s.openTransaction (opCode op) (keyOperand s)).respond [] false)
  else .next (s.raise .sequenceError)

/-- `START.SSUBF`: opens a forward S-block transaction; the key is latched and ignored (R85). -/
def execStartSsubf (s : State) : Host.Outcome State Fault Refusal := startCommon .ssubf s

/-- `START.SSUBI`: opens an inverse S-block transaction; the key is latched and ignored (R86). -/
def execStartSsubi (s : State) : Host.Outcome State Fault Refusal := startCommon .ssubi s

/-- `START.PMIX`: opens a P-block transaction (R106). -/
def execStartPmix (s : State) : Host.Outcome State Fault Refusal := startCommon .pmix s

/-- `START.ENC`: opens an encode transaction (R123). -/
def execStartEnc (s : State) : Host.Outcome State Fault Refusal := startCommon .enc s

/-- `START.DEC`: opens a decode transaction (R124). -/
def execStartDec (s : State) : Host.Outcome State Fault Refusal := startCommon .dec s

end Sys2Proof.Machine
end

