-- ==== Sys2Proof/Machine/Stream.lean ====
section
/-! DEFINITION. The meanings of NOP, BIT and END, formats N, B and E (spec 43_stream_commands.md R135, R138, R143,
R144). -/

namespace Sys2Proof.Machine

/-- What an accepted `BIT b` pushes where, and the bits it emits: the `case OP of` of R143. -/
def pushBit (op : Op) (b : Bit) (s : State) : Bits × State :=
  match op with
  | .ssubf => sPush s.rom.enc b s
  | .ssubi => sPush s.rom.dec b s
  | .pmix => pPush b s
  | .enc => pFeed (sPush s.rom.enc b s).1 (sPush s.rom.enc b s).2
  | .dec => sFeed s.rom.dec (pPush b s).1 (pPush b s).2

/-- What an accepted `END` flushes, and the bits it emits: the `case OP of` of R144. -/
def flushUnits (op : Op) (s : State) : Bits × State :=
  match op with
  | .ssubf => sFlush s
  | .ssubi => sFlush s
  | .pmix => pFlush s
  | .enc => pFlush (sFlush s).2
  | .dec =>
    ((sFeed s.rom.dec (pFlush s).1 (pFlush s).2).1, (sFlush (sFeed s.rom.dec (pFlush s).1 (pFlush s).2).2).2)

/-- `NOP`: returns `([], 0)` and changes no register, idle or busy (R138). -/
def execNop (s : State) : Host.Outcome State Fault Refusal := .next (s.respond [] false)

/-- `BIT b`: `SequenceError` while idle, else one bit pushed and what it releases emitted (R143). -/
def execBit (b : Bit) (s : State) : Host.Outcome State Fault Refusal :=
  if dataAccepted s then
    match opOfCode s.op with
    | some op => .next ((pushBit op b s).2.respond (pushBit op b s).1 false)
    | none => .fault .reservedOperation
  else .next (s.raise .sequenceError)

/-- `END`: `SequenceError` while idle, else the units are flushed, `BUSY` is cleared and `done` answered (R144). -/
def execEndCmd (s : State) : Host.Outcome State Fault Refusal :=
  if dataAccepted s then
    match opOfCode s.op with
    | some op => .next ((flushUnits op s).2.closeTransaction.respond (flushUnits op s).1 true)
    | none => .fault .reservedOperation
  else .next (s.raise .sequenceError)

end Sys2Proof.Machine
end

