-- ==== Sys2Proof/Machine/Dispatch.lean ====
section
/-! DEFINITION. One arm per command, each a call of its meaning (spec 43_stream_commands.md R135). -/

namespace Sys2Proof.Machine

/-- The rule of each command of the opcode table. -/
def exec (i : Instr) (s : State) : Host.Outcome State Fault Refusal :=
  match i with
  | .nop => Sys2Proof.Machine.execNop s
  | .startSsubf => Sys2Proof.Machine.execStartSsubf s
  | .startSsubi => Sys2Proof.Machine.execStartSsubi s
  | .startPmix => Sys2Proof.Machine.execStartPmix s
  | .startEnc => Sys2Proof.Machine.execStartEnc s
  | .startDec => Sys2Proof.Machine.execStartDec s
  | .bit b => Sys2Proof.Machine.execBit b s
  | .endCmd => Sys2Proof.Machine.execEndCmd s

end Sys2Proof.Machine
end

