-- ==== Sys2Proof/Machine/Port.lean ====
section
/-! DEFINITION. The pins: one clock cycle of the core, the order of checks in it, and the output pins (spec
30_encoding.md R60, R69; 43_stream_commands.md R135; 60_exceptions.md R176; 70_reset_and_hazards.md R195). -/

namespace Sys2Proof.Machine

/-- The cycle the host drives next; with nothing queued the host presents nothing (`cmd_valid` = 0, R60;
DESIGN CHOICE, safe). Log entry 2. -/
def State.hostCycle (s : State) : Cycle := s.pending.headD Cycle.idle

/-- The cycle is consumed: a command is one step and is never looked at again (R52, R135). -/
def State.dropCycle (s : State) : State := { s with pending := s.pending.tail }

/-- The `key_in` pins as they stand in the step of a command (R60, R64). -/
def State.sampleKey (key : KeyWord) (s : State) : State := { s with keyIn := key }

/-- One command word presented: the decode check comes first (R135, R176). -/
def runCommand (cw : CommandWord) (s : State) : Host.Outcome State Fault Refusal :=
  match decode cw with
  | .ok i => exec i s
  | .error _ => .next (s.raise .illegalCommand)

/-- One clock cycle: reset over everything (R176, R195), then a command if one is presented (R60). -/
def runCycle (c : Cycle) (s : State) : Host.Outcome State Fault Refusal :=
  if c.rst then .next s.resetRegisters
  else if c.cmdValid then runCommand c.cw (s.sampleKey c.keyIn)
  else .next s.noResponse

/-- The cycle in which the host presents a command word and a key operand. -/
def Cycle.command (cw : CommandWord) (key : KeyWord) : Cycle :=
  { rst := false, cmdValid := true, cw := cw, keyIn := key }

/-- A cycle of reset (R195). -/
def Cycle.reset : Cycle := { rst := true, cmdValid := false, cw := 0#8, keyIn := 0#128 }

/-- The host drives a cycle before all it has queued. -/
def State.present (c : Cycle) (s : State) : State := { s with pending := c :: s.pending }

/-- The output pins (R60). -/
structure OutPins where
  outValid : Bool
  outBits : Octet
  outCnt : BitVec 4
  outDone : Bool
  status : BitVec 3
  deriving DecidableEq, Repr

/-- `out_bits`: the emitted bits left-justified, the first in `out_bits[7]`, zeros after the last (R69). A response
of more than 8 bits, which no step gives (R147), would lose its first bits (DESIGN CHOICE, safe). Log entry 11. -/
def leftJustified (q : Bits) : Octet := BitVec.ofNat 8 (b2n (q ++ List.replicate (8 - q.length) false))

/-- The output pins of a state: the response port (R69) and `status` (R27). -/
def State.outPins (s : State) : OutPins where
  outValid := decide (0 < s.resp.bits.length) || s.resp.done
  outBits := leftJustified s.resp.bits
  outCnt := BitVec.ofNat 4 s.resp.bits.length
  outDone := s.resp.done
  status := statusPort s

end Sys2Proof.Machine
end

