-- ==== Sys2Proof/Machine/Step.lean ====
section
/-! DEFINITION. The step: one clock cycle as the host drives it (spec 43_stream_commands.md R135, 30_encoding.md R60). -/

namespace Sys2Proof.Machine

/-- One step of the machine: the host's next cycle is consumed and run: one clock cycle, with or
without a command (DESIGN CHOICE, safe). Log entry 10. -/
def step (s : State) : Host.Outcome State Fault Refusal := runCycle s.hostCycle s.dropCycle

/-- The state in which the host's next cycle presents the command word of a table row, with `key_in` = 0 (the value
R71 takes for a key that is left out). The core has no program counter and fetches nothing (R23): the word stands on
the command port (DESIGN CHOICE, safe). Log entry 2. -/
def State.withFetchWord (s : State) (nbits w : Nat) : State :=
  s.present (Cycle.command (tableWord nbits w) 0#128)

end Sys2Proof.Machine
end

