-- ==== Sys2Proof/Machine/PBlock.lean ====
section
/-! DEFINITION. Layers 1 and 2 of the P-block keyed XOR mixer (spec 41_pblock.md R100 to R103, R108). -/

namespace Sys2Proof.Machine

/-- The mask, `key mod 256` (R100). -/
def keyMask (key : Nat) : Octet := BitVec.ofNat 8 (key % 256)

/-- `pmix_group(g, mask)`: the group's number XOR the mask, re-expanded to the group's own width (R101). -/
def pmixGroup (g : Bits) (mask : Octet) : Bits := n2b (b2n g ^^^ mask.toNat) g.length

/-- `apply_p_block(s, key)`: groups of 8 bits, the last of 1 to 8 bits still processed (R102, R103). -/
def applyPBlock (s : Bits) (key : Nat) : Bits :=
  (List.range ((s.length + 7) / 8)).flatMap fun j =>
    pmixGroup (slice s (8 * j) (min (8 * j + 8) s.length)) (keyMask key)

/-- `w_j`, the width of group `j` of an `n`-bit sequence: 8, or what is left for a short last group (R108). -/
def groupWidth (n j : Nat) : Nat := min 8 (n - 8 * j)

/-- `pad(n, m)`, with `pad(n, m)[8j+i] = m[w_j-1-i]` (R108). -/
def pad (n : Nat) (m : Octet) : Bits :=
  (List.range n).map fun p => m.getLsbD (groupWidth n (p / 8) - 1 - p % 8)

end Sys2Proof.Machine
end

