-- ==== Sys2Proof/Machine/Spn.lean ====
section
/-! DEFINITION. The single-round composition (spec 42_spn_compose.md R115, R116) and the function each operation
stands for (43_stream_commands.md R145). -/

namespace Sys2Proof.Machine

/-- `encode(s, key)`: the S stage forward, then the P stage (R115). -/
def spnEncode (rom : Tables) (s : Bits) (key : Nat) : Bits := applyPBlock (applySBlock s rom.enc) key

/-- `decode(s, key)`: the P stage, then the S stage with the decode table (R116). -/
def spnDecode (rom : Tables) (s : Bits) (key : Nat) : Bits := applySBlock (applyPBlock s key) rom.dec

/-- The layer 2 function of an operation: the table of R145. -/
def transform (rom : Tables) (op : Op) (key : Nat) (s : Bits) : Bits :=
  match op with
  | .ssubf => applySBlock s rom.enc
  | .ssubi => applySBlock s rom.dec
  | .pmix => applyPBlock s key
  | .enc => spnEncode rom s key
  | .dec => spnDecode rom s key

end Sys2Proof.Machine
end

