-- ==== Sys2Proof/Machine/Transaction.lean ====
section
/-! DEFINITION. Transactions and command streams as the host drives them (spec 00_scope.md R19; 43_stream_commands.md
R136, R145, R146; 30_encoding.md R72). -/

namespace Sys2Proof.Machine

/-- A command as the host issues it, a START with the key it puts on `key_in` (R64). -/
inductive HostCommand where
  | nop
  | start (op : Op) (key : KeyWord)
  | bit (b : Bit)
  | finish
  deriving DecidableEq, Repr

/-- The command of the opcode table that a host command issues (R62). -/
def HostCommand.instr : HostCommand → Instr
  | .nop => .nop
  | .start op _ => op.start
  | .bit b => .bit b
  | .finish => .endCmd

/-- What stands on `key_in` in the step; any value does for a command that is no START (R64), 0 is taken. -/
def HostCommand.keyIn : HostCommand → KeyWord
  | .nop => 0#128
  | .start _ key => key
  | .bit _ => 0#128
  | .finish => 0#128

/-- The cycle in which a host command is presented. -/
def HostCommand.cycle (h : HostCommand) : Cycle := Cycle.command (encode h.instr) h.keyIn

/-- The host command that a command of the table is, with what stands on `key_in`. -/
def hostCommand (i : Instr) (key : KeyWord) : HostCommand :=
  match i with
  | .nop => .nop
  | .startSsubf => .start .ssubf key
  | .startSsubi => .start .ssubi key
  | .startPmix => .start .pmix key
  | .startEnc => .start .enc key
  | .startDec => .start .dec key
  | .bit b => .bit b
  | .endCmd => .finish

/-- The commands a list of cycles presents; cycles without a command are no step (R135). None if a cycle is a reset
or its word is illegal: such a stream presents something other than commands. -/
def commandsOf : List Cycle → Option (List HostCommand)
  | [] => some []
  | c :: cs =>
    if c.rst then none
    else if c.cmdValid then
      match decode c.cw, commandsOf cs with
      | .ok i, some hs => some (hostCommand i c.keyIn :: hs)
      | _, _ => none
    else commandsOf cs

/-- The commands but the NOPs, which may stand anywhere (R145, R146). -/
def withoutNops (hs : List HostCommand) : List HostCommand := hs.filter fun h => h ≠ .nop

/-- One application of one operation to one bit sequence (R19). -/
structure Transaction where
  op : Op
  key : KeyWord
  bits : Bits
  deriving DecidableEq, Repr

/-- The commands of a transaction: START, one BIT per element, END (R145). -/
def Transaction.commands (t : Transaction) : List HostCommand :=
  .start t.op t.key :: (t.bits.map .bit ++ [.finish])

/-- What a transaction computes: the layer 2 function of its operation (R145). -/
def Transaction.result (rom : Tables) (t : Transaction) : Bits := transform rom t.op t.key.toNat t.bits

/-- The bits of a list of responses, in order (R136). -/
def outputOf (rs : List Response) : Bits := rs.flatMap Response.bits

/-- The host's commands run one after the other, each with its key operand on `key_in` (R52, R135). -/
def runCommands : List HostCommand → State → Host.Outcome State Fault Refusal
  | [], s => .next s
  | h :: hs, s =>
    match exec h.instr (s.sampleKey h.keyIn) with
    | .next t => runCommands hs t
    | .fault r => .fault r
    | .refused r => .refused r

/-- `n` steps of the machine, stopping at a fault or a refusal; the same as the host interface's run. -/
def runFor : Nat → State → Host.Outcome State Fault Refusal
  | 0, s => .next s
  | n + 1, s =>
    match step s with
    | .next t => runFor n t
    | .fault r => .fault r
    | .refused r => .refused r

/-- Whether commands have the shape of transactions, NOPs anywhere; the flag says whether one is open (R146, R148). -/
def shapeOk : Bool → List HostCommand → Bool
  | isOpen, [] => !isOpen
  | isOpen, .nop :: hs => shapeOk isOpen hs
  | isOpen, .start _ _ :: hs => !isOpen && shapeOk true hs
  | isOpen, .bit _ :: hs => isOpen && shapeOk true hs
  | isOpen, .finish :: hs => isOpen && shapeOk false hs

/-- A well-formed command stream: legal words only, in the shape of transactions (R146). -/
def wellFormedStream (cs : List Cycle) : Bool :=
  match commandsOf cs with
  | some hs => shapeOk false hs
  | none => false

end Sys2Proof.Machine
end

