-- ==== Sys2Proof/Machine/Asm.lean ====
section
/-! DEFINITION. The textual syntax and the pseudo-commands (spec 30_encoding.md R71, R72): one command a line,
mnemonic first, operands after, `;` to the end of the line a comment, mnemonics case-insensitive. A line is its list
of characters. -/

namespace Sys2Proof.Machine

/-- A line as written: a command or a pseudo-command (R71, R72). -/
inductive AsmLine where
  | blank
  | command (h : HostCommand)
  /-- `BITS <digits>`. -/
  | bits (digits : Bits)
  /-- `XACT <op> [<key>] <digits>`. -/
  | xact (t : Transaction)
  deriving DecidableEq, Repr

/-- The commands a line stands for (R72). -/
def AsmLine.expand : AsmLine → List HostCommand
  | .blank => []
  | .command h => [h]
  | .bits digits => digits.map .bit
  | .xact t => .start t.op t.key :: (t.bits.map .bit ++ [.finish])

/-- Why a line is refused. -/
inductive AsmError where
  | unknownMnemonic
  | badOperand
  deriving DecidableEq, Repr

/-- The line without its comment, in capitals. -/
def asmCode (line : List Char) : List Char := (line.takeWhile fun c => c ≠ ';').map Char.toUpper

/-- The words of a line, separated by spaces or tabs (DESIGN CHOICE, unsafe for claims about texts only). Log entry 8. -/
def asmWords : List Char → List Char → List (List Char)
  | word, [] => if word = [] then [] else [word]
  | word, c :: cs =>
    if c = ' ' ∨ c = '\t' then (if word = [] then asmWords [] cs else word :: asmWords [] cs)
    else asmWords (word ++ [c]) cs

/-- A digit of a decimal or hexadecimal number, letters in capitals. -/
def asmDigit (c : Char) : Option Nat :=
  if 48 ≤ c.toNat ∧ c.toNat ≤ 57 then some (c.toNat - 48)
  else if 65 ≤ c.toNat ∧ c.toNat ≤ 70 then some (c.toNat - 55)
  else none

/-- A number in a base, from its most significant digit. -/
def asmNumber (base : Nat) (acc : Nat) : List Char → Option Nat
  | [] => some acc
  | c :: cs =>
    match asmDigit c with
    | some d => if d < base then asmNumber base (base * acc + d) cs else none
    | none => none

/-- A key operand: decimal or `0x` hexadecimal, below `2^128` (R71). -/
def asmKey (word : List Char) : Option KeyWord :=
  let value :=
    match word with
    | [] => none
    | '0' :: 'X' :: [] => none
    | '0' :: 'X' :: cs => asmNumber 16 0 cs
    | cs => asmNumber 10 0 cs
  match value with
  | some n => if n < 2 ^ 128 then some (BitVec.ofNat 128 n) else none
  | none => none

/-- Digits `0` and `1`, first bit first (R72). -/
def asmBits : List Char → Option Bits
  | [] => some []
  | c :: cs =>
    match asmBits cs with
    | some bs => if c = '0' then some (false :: bs) else if c = '1' then some (true :: bs) else none
    | none => none

/-- The name of an operation, the `<op>` of `XACT` and the tail of a START (R72). -/
def asmOp (word : List Char) : Option Op :=
  if word = ['S', 'S', 'U', 'B', 'F'] then some .ssubf
  else if word = ['S', 'S', 'U', 'B', 'I'] then some .ssubi
  else if word = ['P', 'M', 'I', 'X'] then some .pmix
  else if word = ['E', 'N', 'C'] then some .enc
  else if word = ['D', 'E', 'C'] then some .dec
  else none

/-- Whether an operation may be written without its key: SSUBF and SSUBI, for which it is taken as 0 (R71). -/
def asmKeyOptional : Op → Bool
  | .ssubf => true
  | .ssubi => true
  | .pmix => false
  | .enc => false
  | .dec => false

/-- The operands of `START.<op>` (R71). -/
def asmStart (op : Op) (args : List (List Char)) : Except AsmError AsmLine :=
  match args with
  | [] => if asmKeyOptional op then .ok (.command (.start op 0#128)) else .error .badOperand
  | [word] =>
    match asmKey word with
    | some key => .ok (.command (.start op key))
    | none => .error .badOperand
  | _ => .error .badOperand

/-- The operands of `XACT <op>`: the first word is the key, but for SSUBF and SSUBI when it is made of the digits 0
and 1 only (R72; DESIGN CHOICE, unsafe for claims about texts only). Log entry 8. -/
def asmXact (op : Op) (args : List (List Char)) : Except AsmError AsmLine :=
  let bare := asmKeyOptional op && (asmBits (args.headD [])).isSome
  let key := if bare then some 0#128 else asmKey (args.headD [])
  let digits := asmBits (if bare then args.flatten else args.tail.flatten)
  match key, digits with
  | some k, some ds => .ok (.xact { op := op, key := k, bits := ds })
  | _, _ => .error .badOperand

/-- A mnemonic with its operands (R71, R72). -/
def asmCommand (mnemonic : List Char) (args : List (List Char)) : Except AsmError AsmLine :=
  if mnemonic = ['N', 'O', 'P'] then (if args = [] then .ok (.command .nop) else .error .badOperand)
  else if mnemonic = ['E', 'N', 'D'] then (if args = [] then .ok (.command .finish) else .error .badOperand)
  else if mnemonic = ['B', 'I', 'T'] then
    match args with
    | [['0']] => .ok (.command (.bit false))
    | [['1']] => .ok (.command (.bit true))
    | _ => .error .badOperand
  else if mnemonic = ['B', 'I', 'T', 'S'] then
    match asmBits args.flatten with
    | some ds => .ok (.bits ds)
    | none => .error .badOperand
  else if mnemonic = ['X', 'A', 'C', 'T'] then
    match asmOp (args.headD []) with
    | some op => asmXact op args.tail
    | none => .error .badOperand
  else
    match mnemonic with
    | 'S' :: 'T' :: 'A' :: 'R' :: 'T' :: '.' :: rest =>
      match asmOp rest with
      | some op => asmStart op args
      | none => .error .unknownMnemonic
    | _ => .error .unknownMnemonic

/-- One line of a program (R71). -/
def parseLine (line : List Char) : Except AsmError AsmLine :=
  match asmWords [] (asmCode line) with
  | [] => .ok .blank
  | mnemonic :: args => asmCommand mnemonic args

/-- A program, one line a list of characters: its commands in order, or the first line's error. -/
def assemble : List (List Char) → Except AsmError (List HostCommand)
  | [] => .ok []
  | line :: lines =>
    match parseLine line with
    | .error e => .error e
    | .ok a =>
      match assemble lines with
      | .error e => .error e
      | .ok hs => .ok (a.expand ++ hs)

end Sys2Proof.Machine
end

