-- ==== Sys2Proof/Machine/Codec.lean ====
section
/-! DEFINITION. The host-side Bit Codec, software outside the hardware (spec 44_host_codec.md R155 to R158). No
definition of the machine uses it. A text is its list of characters, a character its Unicode scalar value (PRESUMED, safe:
no rule of the hardware depends on it). Log entry 9. -/

namespace Sys2Proof.Machine

/-- The one failure of the codec (R157): host software only, the hardware has no flag for it. -/
inductive CodecError where
  /-- A byte that maps to no valid character of the target text encoding. -/
  | invalidCodePoint
  deriving DecidableEq, Repr

/-- `text_to_bits(text)`: each code point mod 256, as 8 bits, in character order (R155). -/
def textToBits (text : List Char) : Bits := text.flatMap fun ch => n2b (ch.toNat % 256) 8

/-- The byte of the `j`-th full run of 8 (R156). -/
def byteAt (bits : Bits) (j : Nat) : Nat := b2n (slice bits (8 * j) (8 * j + 8))

/-- `bits_to_text(bits)`: each full run of 8 is a character by its code point, trailing bits are ignored (R156).
Which bytes are valid characters is a parameter of the host software (93 U17). -/
def bitsToText (valid : Nat → Bool) (bits : Bits) : Except CodecError (List Char) :=
  (List.range (bits.length / 8)).foldr
    (fun j rest =>
      match rest with
      | .error e => if valid (byteAt bits j) then .error e else .error .invalidCodePoint
      | .ok text => if valid (byteAt bits j) then .ok (Char.ofNat (byteAt bits j) :: text) else .error .invalidCodePoint)
    (.ok [])

/-- A bit as its textual digit (R158). -/
def bitDigit (b : Bit) : Char := if b then '1' else '0'

/-- `bits_to_display_string(bits)`: runs of 8 as digits, one space between runs, a shorter last run as one more group
(R158). -/
def bitsToDisplayString (bits : Bits) : List Char :=
  List.intercalate [' '] ((List.range ((bits.length + 7) / 8)).map fun j => (slice bits (8 * j) (8 * j + 8)).map bitDigit)

end Sys2Proof.Machine
end

