-- ==== Sys2Proof/Machine/Examples.lean ====
section
/-! DEFINITION. The two example table pairs of the spec's test vectors (95_test_vectors.md section 2, D26). They are
the spec's own and not the repository's. -/

namespace Sys2Proof.Machine

/-- `TBL_EX`: `S_ENC[v] = (5*v + 3) mod 16`, `S_DEC[w] = (13*(w + 13)) mod 16`. -/
def tblEx : Tables where
  enc := tableOf fun v => 5#4 * v + 3#4
  dec := tableOf fun w => 13#4 * (w + 13#4)

/-- `TBL_ID`: `S_ENC[v] = S_DEC[v] = v`. -/
def tblId : Tables where
  enc := tableOf fun v => v
  dec := tableOf fun v => v

end Sys2Proof.Machine
end

