-- ==== Sys2Proof/Machine/Instances.lean ====
section
/-! DEFINITION. Several core instances side by side: no wire between them, any interleaving of their steps (spec
60_exceptions.md R182, 20_memory.md R54). -/

namespace Sys2Proof.Machine

/-- Instance `k` takes a step; the others stand still. A number that is no instance steps nothing
(DESIGN CHOICE, safe). Log entry 12. -/
def stepInstance (k : Nat) (cores : List State) : Host.Outcome (List State) Fault Refusal :=
  match cores[k]? with
  | none => .next cores
  | some s =>
    match step s with
    | .next s' => .next (cores.set k s')
    | .fault r => .fault r
    | .refused r => .refused r

/-- The instances step in the order of a schedule. -/
def runSchedule : List Nat → List State → Host.Outcome (List State) Fault Refusal
  | [], cores => .next cores
  | k :: ks, cores =>
    match stepInstance k cores with
    | .next cores' => runSchedule ks cores'
    | .fault r => .fault r
    | .refused r => .refused r

end Sys2Proof.Machine
end

