-- ==== Sys2Proof/WellFormed.lean ====
section
/-! DEFINITION. What is well formed: commands, command words, table pairs (spec 30_encoding.md R66, 00_scope.md R12,
R14). Well-formed command streams (R146) are in Sys2Proof/Machine/Transaction.lean. -/

namespace Sys2Proof

/-- Every term of `Instr` is well formed: each START is a constructor of its own, so no reserved operation code can
be written down, and the operand of a `BIT` is one wire, so no bit outside {0,1} can be (R12; 93 U1). -/
def Instr.wf : Instr → Bool
  | .nop => true
  | .startSsubf => true
  | .startSsubi => true
  | .startPmix => true
  | .startEnc => true
  | .startDec => true
  | .bit _ => true
  | .endCmd => true

/-- A legal command word selects a row of the opcode table (R62, R66). -/
def legalWord (w : CommandWord) : Bool := !(selectedRows w).isEmpty

/-- `TablesInverse(S_ENC, S_DEC)`: `S_DEC[S_ENC[v]] = v` for every 4-bit `v` (R14). That every entry is in 0 .. 15
holds by the type of an entry (91 N2). It is the premise of the round-trip claims and of nothing else (R90). -/
abbrev TablesInverse (T : Tables) : Prop := ∀ v : Nibble, Machine.romRead T.dec (Machine.romRead T.enc v) = v

end Sys2Proof
end

