-- ==== Sys2Proof/Safety.lean ====
section
/-! DEFINITION. The terms claims are stated in: faulted and final states (spec 60_exceptions.md R174), the state
invariant (10_state.md R32), and what two states may differ in. -/

namespace Sys2Proof.Machine

/-- A faulted state: `ILLOP = 1` or `SEQERR = 1` (R174). -/
def State.faulted (s : State) : Bool := s.illop || s.seqerr

/-- A final state. R174 says only that a faulted state is never final; which other states are final the spec leaves
open, and that no transaction may be open (`BUSY` = 0) is the model's own (DESIGN CHOICE, safe). Log entry 14. -/
def State.final (s : State) : Bool := !s.busy && !s.faulted

/-- The invariant of R32, clauses (b) to (e); clause (a) holds by the widths of the counters. -/
structure Inv (s : State) : Prop where
  /-- (b) accumulator bits at and above the count are 0. -/
  saccBelow : s.sacc.toNat < 2 ^ s.scnt.toNat
  paccBelow : s.pacc.toNat < 2 ^ s.pcnt.toNat
  /-- (c) idle means empty. -/
  idleEmpty : s.busy = false → s.scnt = 0#2 ∧ s.pcnt = 0#3 ∧ s.sacc = 0#4 ∧ s.pacc = 0#8
  /-- (d) `OP` holds a code of an operation. -/
  opLegal : (opOfCode s.op).isSome
  /-- (e) while `OP` is SSUBF or SSUBI, `PCNT = 0`. -/
  ssubPcnt : s.op = opCode .ssubf ∨ s.op = opCode .ssubi → s.pcnt = 0#3
  /-- (e) while `OP` is PMIX, `SCNT = 0`. -/
  pmixScnt : s.op = opCode .pmix → s.scnt = 0#2
  /-- (e) while `OP` is ENC, `PCNT` is 0 or 4. -/
  encPcnt : s.op = opCode .enc → s.pcnt = 0#3 ∨ s.pcnt = 4#3
  /-- (e) while `OP` is DEC, `SCNT = 0`. -/
  decScnt : s.op = opCode .dec → s.scnt = 0#2

/-- The bits `g` wait in the S unit: `SACC` is their number and `SCNT` how many they are (R21, R22). -/
structure SWaiting (g : Bits) (s : State) : Prop where
  count : s.scnt.toNat = g.length
  value : s.sacc.toNat = b2n g

/-- The bits `h` wait in the P unit: `PACC` is their number and `PCNT` how many they are (R21, R22). -/
structure PWaiting (h : Bits) (s : State) : Prop where
  count : s.pcnt.toNat = h.length
  value : s.pacc.toNat = b2n h

/-- `t` is `s` but for the four registers of the units and one more response, the one on the port (R143): the frame
of an accepted BIT. -/
def OnlyUnitsAndResponse (s t : State) : Prop :=
  t = { s with sacc := t.sacc, scnt := t.scnt, pacc := t.pacc, pcnt := t.pcnt, resp := t.resp,
               sent := s.sent ++ [t.resp] }

/-- The state of the machine with `OP` and `KEY` blanked. -/
def State.forgetOpKey (s : State) : State := { s with op := 0#3, key := 0#128 }

/-- A key with its dead bits, `KEY[127:8]`, blanked (R26). -/
def liveKey (k : KeyWord) : KeyWord := (k.extractLsb' 0 8).setWidth 128

/-- A cycle with the dead bits of its key operand blanked (R26, R64). -/
def Cycle.forgetDeadKey (c : Cycle) : Cycle := { c with keyIn := liveKey c.keyIn }

/-- A state with the dead bits of every key in it blanked (R13, R26). -/
def State.forgetDeadKey (s : State) : State :=
  { s with key := liveKey s.key, keyIn := liveKey s.keyIn, pending := s.pending.map Cycle.forgetDeadKey }

/-- The host's next cycle presents a command word. -/
def State.presents (s : State) (cw : CommandWord) : Prop :=
  s.hostCycle.rst = false ∧ s.hostCycle.cmdValid = true ∧ s.hostCycle.cw = cw

/-- The state a command of the host's next cycle finds: the cycle consumed, its key operand on `key_in`. -/
def State.atCommand (s : State) : State := s.dropCycle.sampleKey s.hostCycle.keyIn

end Sys2Proof.Machine
end

