-- ==== Sys2Proof/Certificates/Slice0/Obligations.lean ====
section
/-! DEFINITION. The statements for the provers. Each docstring names the rules of the spec it rests on. -/

open Sys2Proof Sys2Proof.Machine

/-! ### Encoding (spec 30_encoding.md) -/

/-- Words written out from the encodings of R62 decode to the commands they stand for, and some of R66's illegal words
to none, by their names. -/
def Obligations.WordsOfTheOpcodeTableDecode : Prop :=
  decode 0b00000000#8 = .ok .nop ∧ decode 0b00111111#8 = .ok .nop ∧
  decode 0b01000000#8 = .ok .startSsubf ∧ decode 0b01000001#8 = .ok .startSsubi ∧
  decode 0b01000010#8 = .ok .startPmix ∧ decode 0b01000100#8 = .ok .startEnc ∧
  decode 0b01000101#8 = .ok .startDec ∧
  decode 0b10000000#8 = .ok (.bit false) ∧ decode 0b10000001#8 = .ok (.bit true) ∧
  decode 0b11000000#8 = .ok .endCmd ∧
  decode 0b01000011#8 = .error .startReservedOp ∧ decode 0b01001000#8 = .error .startReservedBits ∧
  decode 0b10000010#8 = .error .bitReservedBits ∧ decode 0b11000001#8 = .error .endReservedBits

/-- R62, R67, R68: a word decodes to a command exactly when it agrees with the command's word in every bit the decoder
does not ignore. So `decode (encode i) = i`, and no other word decodes to `i` but the 64 words of `NOP`. -/
def Obligations.DecodeReadsExactlyTheWordsOfACommand : Prop :=
  ∀ (i : Instr) (w : CommandWord), decode w = .ok i ↔ w &&& significantBits i = encode i

/-- R62, R66: the rows are disjoint, and a word that selects one is one the decoder accepts; 72 of the 256 words are
legal and 184 are not, and the illegal ones are `0x43`, `0x46` to `0x7F`, `0x82` to `0xBF` and `0xC1` to `0xFF`. -/
def Obligations.LegalWordsSelectOneRow : Prop :=
  (∀ w : CommandWord,
    (legalWord w = true → (selectedRows w).length = 1 ∧ ∃ i, decode w = .ok i) ∧
    (legalWord w = false → selectedRows w = [] ∧ ∃ e, decode w = .error e) ∧
    (legalWord w = false ↔ w.toNat = 0x43 ∨ (0x46 ≤ w.toNat ∧ w.toNat ≤ 0x7F) ∨
      (0x82 ≤ w.toNat ∧ w.toNat ≤ 0xBF) ∨ 0xC1 ≤ w.toNat)) ∧
  ((List.range 256).filter fun n => legalWord (BitVec.ofNat 8 n)).length = 72

/-- R52, R135: a machine on whose command port the words of a list of commands are presented, one a cycle, does after
as many steps what the rules of the commands do one after the other; what the host has queued behind them is left. -/
def Obligations.EncodedStreamRunsItsCommands : Prop :=
  ∀ (hs : List HostCommand) (rest : List Cycle) (s : State),
    runFor hs.length { s with pending := hs.map HostCommand.cycle ++ rest } =
      runCommands hs { s with pending := rest }

/-- R71, R72: the pseudo-command `XACT` expands to START, one BIT per digit, END, and the words of that expansion are
a transaction on the command port. -/
def Obligations.XactPresentsItsTransaction : Prop :=
  ∀ (t : Transaction) (gap : List Cycle), (∀ c ∈ gap, c.rst = false ∧ c.cmdValid = false) →
    commandsOf (gap ++ (AsmLine.xact t).expand.map HostCommand.cycle) = some t.commands

/-! ### The step (spec 43_stream_commands.md R135, 30_encoding.md R60, 70_reset_and_hazards.md R195) -/

/-- R135: when the host's next cycle presents a word that decodes to `i`, the step is the rule of `i`, in the state in
which the cycle is consumed and its key operand stands on `key_in`. -/
def Obligations.StepRunsTheDecodedCommand : Prop :=
  ∀ (s : State) (cw : CommandWord) (i : Instr), s.presents cw → decode cw = .ok i →
    step s = exec i { s with pending := s.pending.tail, keyIn := s.hostCycle.keyIn }

/-- R135, R69: a cycle with `cmd_valid` = 0 is not a step and changes no register, and the port shows no response in
the cycle after it. With nothing queued the host presents nothing (the model's choice, log entry 2). -/
def Obligations.CycleWithoutCommandChangesNothing : Prop :=
  ∀ s : State, s.hostCycle.rst = false → s.hostCycle.cmdValid = false →
    ∃ t, step s = .next t ∧ t = { s with pending := s.pending.tail, resp := t.resp } ∧ t.outPins.outValid = false

/-- R195: reset. All nine registers take their reset values, the response port shows no response, the command of the
same cycle is not executed (no response joins the ones given), the S-tables stand; and nothing but a reset clears
`ILLOP` or `SEQERR`. -/
def Obligations.ResetClearsEveryRegister : Prop :=
  (∀ s : State, s.hostCycle.rst = true → ∃ t, step s = .next t ∧
    t.op = 0b000#3 ∧ t.key = 0#128 ∧ t.busy = false ∧ t.illop = false ∧ t.seqerr = false ∧
    t.sacc = 0#4 ∧ t.scnt = 0#2 ∧ t.pacc = 0#8 ∧ t.pcnt = 0#3 ∧
    t.outPins = { outValid := false, outBits := 0#8, outCnt := 0#4, outDone := false, status := 0#3 } ∧
    t.sent = s.sent ∧ t.rom = s.rom ∧ t.pending = s.pending.tail) ∧
  (∀ s t : State, step s = .next t →
    (s.illop = true ∧ t.illop = false ∨ s.seqerr = true ∧ t.seqerr = false) → s.hostCycle.rst = true)

/-- R30: the values after reset. -/
def Obligations.ResetStateHoldsTheResetValues : Prop :=
  State.reset.op = 0b000#3 ∧ State.reset.key = 0#128 ∧ State.reset.busy = false ∧ State.reset.illop = false ∧
  State.reset.seqerr = false ∧ State.reset.sacc = 0b0000#4 ∧ State.reset.scnt = 0b00#2 ∧
  State.reset.pacc = 0x00#8 ∧ State.reset.pcnt = 0b000#3 ∧
  State.reset.rom = { enc := Config.sEnc, dec := Config.sDec } ∧ State.reset.outPins.outValid = false

/-! ### START, NOP and the two faults (spec 43_stream_commands.md, 60_exceptions.md) -/

/-- R137: an accepted START, for each of the five commands: `OP` gets `cw[2:0]`, `KEY` all of `key_in`, the
accumulators are cleared, `BUSY` is set, nothing is emitted, nothing else changes. -/
def Obligations.AcceptedStartOpensATransaction : Prop :=
  ∀ (op : Op) (s : State), s.busy = false →
    exec op.start s = .next { s with
      op := opField (encode op.start), key := s.keyIn, sacc := 0#4, scnt := 0#2, pacc := 0#8, pcnt := 0#3, busy := true,
      resp := { bits := [], done := false }, sent := s.sent ++ [{ bits := [], done := false }] }

/-- R172: `SequenceError`. A START while busy, and a BIT or an END while idle, set `SEQERR`, answer `([], 0)` and
change no other register; the flag stays up until reset; a NOP never raises it. -/
def Obligations.OutOfSequenceCommandSetsSeqerrOnly : Prop :=
  (∀ (i : Instr) (s : State),
    (∃ op, i = Op.start op) ∧ s.busy = true ∨ ((∃ b, i = .bit b) ∨ i = .endCmd) ∧ s.busy = false →
    exec i s = .next { s with
      seqerr := true, resp := { bits := [], done := false }, sent := s.sent ++ [{ bits := [], done := false }] }) ∧
  (∀ s t : State, step s = .next t → s.seqerr = true → s.hostCycle.rst = false → t.seqerr = true) ∧
  (∀ s t : State, exec .nop s = .next t → t.seqerr = s.seqerr)

/-- R171: `IllegalCommand`. A word that decodes to no command sets `ILLOP`, in any state, answers `([], 0)` so that
`out_valid` = 0, and changes no other register; the flag stays up until reset. -/
def Obligations.IllegalWordSetsIllopOnly : Prop :=
  (∀ (s : State) (cw : CommandWord) (e : IllegalWord), s.presents cw → decode cw = .error e →
    ∃ t, step s = .next t ∧ t.outPins.outValid = false ∧ t = { s with
      illop := true, resp := { bits := [], done := false }, sent := s.sent ++ [{ bits := [], done := false }],
      pending := s.pending.tail, keyIn := s.hostCycle.keyIn }) ∧
  (∀ s t : State, step s = .next t → s.illop = true → s.hostCycle.rst = false → t.illop = true)

/-- R138: `NOP`, each of its 64 words, changes no register and no flag in any state, idle or busy, and answers
`([], 0)`. -/
def Obligations.NopChangesNoRegister : Prop :=
  (∀ w : CommandWord, kindField w = 0b00#2 → decode w = .ok .nop) ∧
  ∀ s : State, exec .nop s = .next { s with
    resp := { bits := [], done := false }, sent := s.sent ++ [{ bits := [], done := false }] }

/-- R176: one step raises at most one fault. The decode check comes first: `ILLOP` rises exactly on an illegal word,
whatever `BUSY` is; `SEQERR` rises exactly on a legal START while busy or a legal BIT or END while idle; with
`rst` = 1 no fault is raised. -/
def Obligations.EachFlagRisesExactlyOnItsFault : Prop :=
  ∀ s t : State, step s = .next t →
    (s.hostCycle.rst = true → t.illop = false ∧ t.seqerr = false) ∧
    (s.hostCycle.rst = false →
      (t.illop = true ↔ s.illop = true ∨ s.hostCycle.cmdValid = true ∧ legalWord s.hostCycle.cw = false) ∧
      (t.seqerr = true ↔ s.seqerr = true ∨ s.hostCycle.cmdValid = true ∧
        ((∃ op, decode s.hostCycle.cw = .ok (Op.start op)) ∧ s.busy = true ∨
          ((∃ b, decode s.hostCycle.cw = .ok (.bit b)) ∨ decode s.hostCycle.cw = .ok .endCmd) ∧ s.busy = false))) ∧
    ¬((s.illop = false ∧ t.illop = true) ∧ (s.seqerr = false ∧ t.seqerr = true))

/-- R27, R170: `status[0]` is `BUSY`, `status[1]` is `ILLOP`, `status[2]` is `SEQERR`, and the code of a fault is the
position of its flag. -/
def Obligations.StatusPortShowsTheFlags : Prop :=
  ∀ s : State, (statusPort s).getLsbD 0 = s.busy ∧ (statusPort s).getLsbD 1 = s.illop ∧
    (statusPort s).getLsbD 2 = s.seqerr ∧ ∀ f : HwFault, (statusPort (s.raise f)).getLsbD f.code = true

/-- R174, R178: a faulted state stays faulted, and is never final, as long as no reset comes. It does not rest on what
else the model asks of a final state (`BUSY` = 0, the model's choice, log entry 14). -/
def Obligations.FaultedStateIsNeverFinalBeforeReset : Prop :=
  ∀ (n : Nat) (s t : State), (∀ c ∈ s.pending.take n, c.rst = false) → runFor n s = .next t → s.faulted = true →
    t.faulted = true ∧ t.final = false

/-! ### BIT and END (spec 43_stream_commands.md R139 to R144) -/

/-- R139, R143 with R83: an accepted BIT under SSUBF or SSUBI. With the bits `g` waiting in the S unit it emits the S
stage of `g` and `b` (4 bits when that makes a group, else none), what is left waits, and nothing else changes. -/
def Obligations.BitUnderSsubFeedsTheSUnit : Prop :=
  ∀ (b : Bit) (g : Bits) (s : State), s.busy = true → SWaiting g s →
    ∀ T : STable, (s.op = 0b000#3 ∧ T = s.rom.enc ∨ s.op = 0b001#3 ∧ T = s.rom.dec) →
    ∃ t, exec (.bit b) s = .next t ∧ OnlyUnitsAndResponse s t ∧
      t.resp = { bits := applySBlock (g ++ [b]) T, done := false } ∧
      SWaiting (if g.length = 3 then [] else g ++ [b]) t ∧ t.pacc = s.pacc ∧ t.pcnt = s.pcnt

/-- R141, R143 with R101: an accepted BIT under PMIX. With the bits `h` waiting in the P unit it emits the mixed group
of 8 when `b` completes it, else nothing, what is left waits, and nothing else changes. -/
def Obligations.BitUnderPmixFeedsThePUnit : Prop :=
  ∀ (b : Bit) (h : Bits) (s : State), s.busy = true → s.op = 0b010#3 → PWaiting h s →
    ∃ t, exec (.bit b) s = .next t ∧ OnlyUnitsAndResponse s t ∧
      t.resp = { bits := if h.length = 7 then pmixGroup (h ++ [b]) (s.key.extractLsb' 0 8) else [], done := false } ∧
      PWaiting (if h.length = 7 then [] else h ++ [b]) t ∧ t.sacc = s.sacc ∧ t.scnt = s.scnt

/-- R143: an accepted BIT under ENC. The S unit, with the encode table, releases 4 bits on every fourth BIT; those go
into the P unit, which emits a mixed group of 8 when they complete one. -/
def Obligations.BitUnderEncFeedsSThenP : Prop :=
  ∀ (b : Bit) (g h : Bits) (s : State), s.busy = true → s.op = 0b100#3 → SWaiting g s → PWaiting h s →
    let h' := h ++ applySBlock (g ++ [b]) s.rom.enc
    ∃ t, exec (.bit b) s = .next t ∧ OnlyUnitsAndResponse s t ∧
      t.resp = { bits := if 8 ≤ h'.length then pmixGroup (h'.take 8) (s.key.extractLsb' 0 8) else [], done := false } ∧
      SWaiting (if g.length = 3 then [] else g ++ [b]) t ∧
      PWaiting (if 8 ≤ h'.length then h'.drop 8 else h') t

/-- R143: an accepted BIT under DEC. The P unit releases a mixed group of 8 on every eighth BIT; its bits go into the
S unit, with the decode table, which emits its full groups and keeps the rest. -/
def Obligations.BitUnderDecFeedsPThenS : Prop :=
  ∀ (b : Bit) (g h : Bits) (s : State), s.busy = true → s.op = 0b101#3 → SWaiting g s → PWaiting h s →
    let g' := g ++ (if h.length = 7 then pmixGroup (h ++ [b]) (s.key.extractLsb' 0 8) else [])
    ∃ t, exec (.bit b) s = .next t ∧ OnlyUnitsAndResponse s t ∧
      t.resp = { bits := applySBlock g' s.rom.dec, done := false } ∧
      SWaiting (g'.drop (4 * (g'.length / 4))) t ∧
      PWaiting (if h.length = 7 then [] else h ++ [b]) t

/-- R144: an accepted END, for each operation, with the bits `g` waiting in the S unit and `h` in the P unit. It
answers `done` with what the flush emits, clears `BUSY` and the flushed registers, and changes nothing else. -/
def Obligations.EndFlushesTheUnits : Prop :=
  ∀ (op : Op) (g h : Bits) (s : State), s.busy = true → s.op = opCode op → SWaiting g s → PWaiting h s →
    let q : Bits := match op with
      | .ssubf => []
      | .ssubi => []
      | .pmix => pmixGroup h (s.key.extractLsb' 0 8)
      | .enc => pmixGroup h (s.key.extractLsb' 0 8)
      | .dec => applySBlock (g ++ pmixGroup h (s.key.extractLsb' 0 8)) s.rom.dec
    ∃ t, exec .endCmd s = .next t ∧
      t = { s with sacc := t.sacc, scnt := t.scnt, pacc := t.pacc, pcnt := t.pcnt, busy := false,
                   resp := { bits := q, done := true }, sent := s.sent ++ [{ bits := q, done := true }] } ∧
      (if op = .pmix then t.sacc = s.sacc ∧ t.scnt = s.scnt else t.sacc = 0#4 ∧ t.scnt = 0#2) ∧
      (if op = .ssubf ∨ op = .ssubi then t.pacc = s.pacc ∧ t.pcnt = s.pcnt else t.pacc = 0#8 ∧ t.pcnt = 0#3)

/-- R143, R144: a BIT or an END completes in every busy state whose `OP` holds the code of an operation. In a busy
state whose `OP` holds one of the three codes it never holds (R25), it stops by the name of that (the model's choice,
log entry 7; no reachable state does). -/
def Obligations.BitAndEndCompleteWhileBusy : Prop :=
  ∀ (i : Instr) (s : State), ((∃ b, i = .bit b) ∨ i = .endCmd) → s.busy = true →
    ((∃ op, s.op = opCode op) → ∃ t, exec i s = .next t) ∧
    ((s.op = 0b011#3 ∨ s.op = 0b110#3 ∨ s.op = 0b111#3) → exec i s = .fault .reservedOperation)

/-- R135, R143, R144, R137, R24, R69: what no command changes, and when `OP`, `KEY`, `BUSY` and `done` change. Whatever
a command does, the ROMs, `ILLOP`, the host's queue and the `key_in` pins stand, one response is added, and it is the
one on the port; `OP` and `KEY` change only in an accepted START, `BUSY` only in an accepted START or END; `done` is
answered by an accepted END and nothing else. It says nothing of `SEQERR` (see EachFlagRisesExactlyOnItsFault) nor of
the accumulators and their counters (see the statements of the single commands). -/
def Obligations.CommandsLeaveTheRestAlone : Prop :=
  ∀ (i : Instr) (s t : State), exec i s = .next t →
    t.rom = s.rom ∧ t.illop = s.illop ∧ t.pending = s.pending ∧ t.keyIn = s.keyIn ∧ t.sent = s.sent ++ [t.resp] ∧
    (t.op ≠ s.op ∨ t.key ≠ s.key → (∃ op, i = Op.start op) ∧ s.busy = false) ∧
    (t.busy ≠ s.busy → (∃ op, i = Op.start op) ∧ s.busy = false ∨ i = .endCmd ∧ s.busy = true) ∧
    (t.resp.done = true ↔ i = .endCmd ∧ s.busy = true)

/-- R147: no step emits more than 8 bits, so that `out_cnt` and `out_bits` are wide enough; an END emits at most 7
bits under PMIX, 0 or 4 under ENC and DEC in a state of the invariant, none under SSUBF and SSUBI. -/
def Obligations.NoStepEmitsMoreThanEightBits : Prop :=
  (∀ s t : State, step s = .next t → t.resp.bits.length ≤ 8) ∧
  (∀ s t : State, Inv s → s.busy = true → exec .endCmd s = .next t →
    (s.op = opCode .ssubf ∨ s.op = opCode .ssubi → t.resp.bits = []) ∧
    (s.op = opCode .pmix → t.resp.bits.length ≤ 7) ∧
    (s.op = opCode .enc ∨ s.op = opCode .dec → t.resp.bits.length = 0 ∨ t.resp.bits.length = 4))

/-- R69: the output pins of a response of at most 8 bits: `out_cnt` is their number, the first is in `out_bits[7]`,
zeros follow the last, `out_valid` is up exactly when there are bits or `done`. -/
def Obligations.OutPinsShowTheResponse : Prop :=
  ∀ s : State, s.resp.bits.length ≤ 8 →
    s.outPins.outCnt.toNat = s.resp.bits.length ∧ s.outPins.outDone = s.resp.done ∧
    (s.outPins.outValid = true ↔ 0 < s.resp.bits.length ∨ s.resp.done = true) ∧
    ∀ i, i < 8 → s.outPins.outBits.getLsbD (7 - i) = s.resp.bits.getD i false

/-! ### Invariants and whole-machine rules -/

/-- R32 at reset. -/
def Obligations.InvariantHoldsAtReset : Prop := Inv State.reset

/-- R32: every step from a state of the invariant leads to a state of the invariant. -/
def Obligations.EveryStepKeepsTheInvariant : Prop :=
  ∀ s t : State, Inv s → step s = .next t → Inv t

/-- R173, R174: from a state of the invariant every step goes on, whatever the host drives: neither hardware fault
stops the core and the data path raises nothing. -/
def Obligations.NoStepStopsUnderTheInvariant : Prop :=
  ∀ s : State, Inv s → ∃ t, step s = .next t

/-- R148: the only transitions of `BUSY` are idle to busy on an accepted START and busy to idle on an accepted END;
reset forces idle. -/
def Obligations.BusyChangesOnlyByStartEndAndReset : Prop :=
  ∀ s t : State, step s = .next t →
    (s.hostCycle.rst = true → t.busy = false) ∧
    (s.hostCycle.rst = false →
      (s.busy = false → (t.busy = true ↔
        s.hostCycle.cmdValid = true ∧ ∃ op, decode s.hostCycle.cw = .ok (Op.start op))) ∧
      (s.busy = true → (t.busy = false ↔
        s.hostCycle.cmdValid = true ∧ decode s.hostCycle.cw = .ok .endCmd)))

/-- R25, R26: `OP` and `KEY` are written by an accepted START and by reset, and by nothing else. -/
def Obligations.OpAndKeyAreWrittenOnlyByStartAndReset : Prop :=
  ∀ s t : State, step s = .next t → (t.op ≠ s.op ∨ t.key ≠ s.key) →
    s.hostCycle.rst = true ∨
      (s.hostCycle.cmdValid = true ∧ s.busy = false ∧ ∃ op, decode s.hostCycle.cw = .ok (Op.start op) ∧
        t.op = opCode op ∧ t.key = s.hostCycle.keyIn)

/-- R41, R56: no run, reset or not, changes an entry of a table; and a table's entry `T[row][col]` is the one at index
`4*row + col`. -/
def Obligations.TablesAreReadOnly : Prop :=
  (∀ (n : Nat) (s t : State), runFor n s = .next t → t.rom = s.rom) ∧
  (∀ (T : STable) (row col : Fin 4),
    romRead T (BitVec.ofNat 4 (4 * row.val + col.val)) = (T.get row).get col)

/-- R13, R26 (93 U8): `KEY[127:8]` is dead weight. Two runs that differ in nothing but bits 8 to 127 of keys, held or
driven, give the same responses and the same pins. -/
def Obligations.DeadKeyBitsCannotBeObserved : Prop :=
  ∀ (n : Nat) (s₁ s₂ t₁ : State), s₁.forgetDeadKey = s₂.forgetDeadKey → runFor n s₁ = .next t₁ →
    ∃ t₂, runFor n s₂ = .next t₂ ∧ t₁.forgetDeadKey = t₂.forgetDeadKey ∧ t₁.sent = t₂.sent ∧ t₁.outPins = t₂.outPins

/-- R31: what `OP` and `KEY` hold in an idle state cannot be observed: two runs from idle states that differ in
nothing else give the same responses and the same pins. -/
def Obligations.IdleOpAndKeyCannotBeObserved : Prop :=
  ∀ (n : Nat) (s₁ s₂ t₁ : State), s₁.busy = false → s₁.forgetOpKey = s₂.forgetOpKey → runFor n s₁ = .next t₁ →
    ∃ t₂, runFor n s₂ = .next t₂ ∧ t₁.sent = t₂.sent ∧ t₁.outPins = t₂.outPins

/-- R54, R182: instances share nothing: whatever the interleaving, each instance is where its own steps alone would
have brought it. -/
def Obligations.InstancesRunIndependently : Prop :=
  ∀ (schedule : List Nat) (cores cores' : List State), runSchedule schedule cores = .next cores' →
    cores'.length = cores.length ∧
    ∀ (k : Nat) (s : State), cores[k]? = some s → ∃ t, cores'[k]? = some t ∧ runFor (schedule.count k) s = .next t

/-! ### Transactions (spec 43_stream_commands.md R145, R146; 70_reset_and_hazards.md R196) -/

/-- R145, the headline. From any idle state, whatever its registers and flags hold, the cycles of a transaction, with
NOPs and cycles without a command anywhere, give as many responses as there are commands, whose bits are the source's
function of the operation, the key and the sequence, under whatever tables the core has; `done` comes with END and with
nothing else; no flag changes; the core is idle and its accumulators empty. -/
def Obligations.TransactionComputesItsFunction : Prop :=
  ∀ (tr : Transaction) (cs rest : List Cycle) (hs : List HostCommand) (s : State),
    s.busy = false → s.pending = cs ++ rest → commandsOf cs = some hs → withoutNops hs = tr.commands →
    ∃ (t : State) (rs : List Response), runFor cs.length s = .next t ∧
      t.sent = s.sent ++ rs ∧ outputOf rs = tr.result s.rom ∧
      rs.map Response.done = hs.map (fun h => decide (h = .finish)) ∧
      t.illop = s.illop ∧ t.seqerr = s.seqerr ∧ t.busy = false ∧
      t.sacc = 0#4 ∧ t.scnt = 0#2 ∧ t.pacc = 0#8 ∧ t.pcnt = 0#3 ∧ t.pending = rest

/-- R146, R173, R17: a stream that is a sequence of transactions, NOPs and empty cycles anywhere, never sets a fault
flag and outputs the functions of its transactions one after the other. -/
def Obligations.StreamComputesEachTransaction : Prop :=
  ∀ (trs : List Transaction) (cs rest : List Cycle) (hs : List HostCommand) (s : State),
    s.busy = false → s.pending = cs ++ rest → commandsOf cs = some hs →
    withoutNops hs = trs.flatMap Transaction.commands →
    ∃ (t : State) (rs : List Response), runFor cs.length s = .next t ∧
      t.sent = s.sent ++ rs ∧ outputOf rs = trs.flatMap (Transaction.result s.rom) ∧
      t.illop = s.illop ∧ t.seqerr = s.seqerr ∧ t.busy = false ∧ t.pending = rest

/-- R146: the well-formed streams are exactly the sequences of transactions, NOPs anywhere. -/
def Obligations.WellFormedStreamsAreSequencesOfTransactions : Prop :=
  ∀ cs : List Cycle, wellFormedStream cs = true ↔
    ∃ (hs : List HostCommand) (trs : List Transaction),
      commandsOf cs = some hs ∧ withoutNops hs = trs.flatMap Transaction.commands

/-- R196: a reset in the middle of a transaction. What was answered until then is a prefix of what the whole
transaction would have output and none of it says `done`; the reset leaves those responses and empties the core. -/
def Obligations.ResetMidTransactionLeavesAPrefix : Prop :=
  ∀ (op : Op) (key : KeyWord) (front back : Bits) (rest : List Cycle) (s : State), s.busy = false →
    s.pending = (HostCommand.start op key :: front.map HostCommand.bit).map HostCommand.cycle ++ Cycle.reset :: rest →
    ∃ (t : State) (rs : List Response), runFor (front.length + 2) s = .next t ∧
      t.sent = s.sent ++ rs ∧ outputOf rs <+: transform s.rom op key.toNat (front ++ back) ∧
      (∀ r ∈ rs, r.done = false) ∧ t = { State.reset with rom := s.rom, keyIn := t.keyIn, pending := rest, sent := t.sent }

/-- R120 on the machine: with tables that are inverse, an ENC transaction followed by a DEC transaction of its output
under a key with the same low byte gives back the sequence cut to a multiple of 4. -/
def Obligations.MachineRoundTrip : Prop :=
  ∀ (bits : Bits) (k₁ k₂ : KeyWord) (rest : List Cycle) (s : State),
    TablesInverse s.rom → s.busy = false → k₁.extractLsb' 0 8 = k₂.extractLsb' 0 8 →
    s.pending = (({ op := .enc, key := k₁, bits := bits } : Transaction).commands ++
      ({ op := .dec, key := k₂, bits := spnEncode s.rom bits k₁.toNat } : Transaction).commands).map HostCommand.cycle ++ rest →
    ∃ (t : State) (rs₁ rs₂ : List Response),
      runFor (bits.length + 2 + (4 * (bits.length / 4) + 2)) s = .next t ∧
      t.sent = s.sent ++ rs₁ ++ rs₂ ∧ outputOf rs₁ = spnEncode s.rom bits k₁.toNat ∧
      outputOf rs₂ = bits.take (4 * (bits.length / 4)) ∧ t.pending = rest

/-! ### The source's functions (spec 00_scope.md, 40_sblock.md, 41_pblock.md, 42_spn_compose.md) -/

/-- R10: the conversion laws. R10 gives them for `len(g) <= 8` and `w <= 8`; that they are stated here for every
length and width is the model's extension of `b2n` and `n2b`, log entry 11 (DEDUCED). -/
def Obligations.ConversionsAreInverse : Prop :=
  (∀ g : Bits, n2b (b2n g) g.length = g) ∧ (∀ x w : Nat, b2n (n2b x w) = x % 2 ^ w) ∧
  (∀ x y w : Nat, n2b (x ^^^ y) w = xorBits (n2b x w) (n2b y w))

/-- R15: under `TablesInverse` the decode table is the two-sided inverse of the encode table. -/
def Obligations.InverseTablesAreTwoSided : Prop :=
  ∀ T : Tables, TablesInverse T →
    (∀ w : Nibble, romRead T.enc (romRead T.dec w) = w) ∧ Function.Bijective (romRead T.enc)

/-- R84: the S stage outputs `4*floor(len/4)` bits and its short last group has no influence on them. -/
def Obligations.SStageDropsAShortLastGroup : Prop :=
  ∀ (s : Bits) (T : STable), (applySBlock s T).length = s.length / 4 * 4 ∧
    applySBlock s T = applySBlock (s.take (4 * (s.length / 4))) T

/-- R43, R89, R110: the groups are lanes: a sequence cut at a group boundary is substituted, and mixed, part by
part. -/
def Obligations.GroupsAreIndependentLanes : Prop :=
  (∀ (a b : Bits) (T : STable), a.length % 4 = 0 → applySBlock (a ++ b) T = applySBlock a T ++ applySBlock b T) ∧
  (∀ (a b : Bits) (key : Nat), a.length % 8 = 0 → applyPBlock (a ++ b) key = applyPBlock a key ++ applyPBlock b key)

/-- R88: the stage inverse law, both ways. -/
def Obligations.SStageInverse : Prop :=
  ∀ (T : Tables) (s : Bits), TablesInverse T →
    applySBlock (applySBlock s T.enc) T.dec = s.take (4 * (s.length / 4)) ∧
    applySBlock (applySBlock s T.dec) T.enc = s.take (4 * (s.length / 4))

/-- R101, R44: bit `i` of a group of `w` bits meets bit `w-1-i` of the mask. -/
def Obligations.MaskMeetsAGroupFromItsLowEnd : Prop :=
  ∀ (g : Bits) (mask : Octet) (i : Nat) (h : i < g.length), g.length ≤ 8 →
    (pmixGroup g mask)[i]? = some (g[i] ^^ mask.getLsbD (g.length - 1 - i))

/-- R104: the P stage applied twice with the same key is the identity, for every length and every key. -/
def Obligations.PStageIsAnInvolution : Prop :=
  ∀ (s : Bits) (key : Nat), applyPBlock (applyPBlock s key) key = s

/-- R105, R47: the P stage keeps the length. -/
def Obligations.PStageKeepsTheLength : Prop :=
  ∀ (s : Bits) (key : Nat), (applyPBlock s key).length = s.length

/-- R107: two keys do the same to every sequence exactly when they are equal mod 256. -/
def Obligations.OnlyTheLowKeyByteMatters : Prop :=
  ∀ k₁ k₂ : Nat, (∀ s : Bits, applyPBlock s k₁ = applyPBlock s k₂) ↔ k₁ % 256 = k₂ % 256

/-- R108: the P stage is the XOR with a pad of the length and the mask, so two keys in a row are their XOR. -/
def Obligations.PStageXorsAPad : Prop :=
  (∀ (s : Bits) (key : Nat), applyPBlock s key = xorBits s (pad s.length (keyMask key))) ∧
  (∀ (s : Bits) (k₁ k₂ : Nat), applyPBlock (applyPBlock s k₁) k₂ = applyPBlock s (k₁ ^^^ k₂)) ∧
  (∀ (s t : Bits) (key : Nat), s.length = t.length →
    xorBits (applyPBlock (xorBits s t) key) (applyPBlock t key) = s)

/-- R117: `encode` outputs `4*floor(n/4)` bits; byte by byte it is `{S_ENC[hi] ^ mask[7:4], S_ENC[lo] ^ mask[3:0]}`,
and a single last nibble meets `mask[3:0]`. -/
def Obligations.ShapeOfEncode : Prop :=
  ∀ (rom : Tables) (s : Bits) (key : Nat),
    (spnEncode rom s key).length = 4 * (s.length / 4) ∧
    (∀ hi lo : Nibble, spnEncode rom (n2b hi.toNat 4 ++ n2b lo.toNat 4 ++ s) key =
      n2b (romRead rom.enc hi ^^^ (keyMask key).extractLsb' 4 4).toNat 4 ++
      n2b (romRead rom.enc lo ^^^ (keyMask key).extractLsb' 0 4).toNat 4 ++ spnEncode rom s key) ∧
    (∀ v : Nibble, spnEncode rom (n2b v.toNat 4) key =
      n2b (romRead rom.enc v ^^^ (keyMask key).extractLsb' 0 4).toNat 4)

/-- R118: `decode` outputs `4*floor(n/4)` bits; byte by byte it is `{S_DEC[hi ^ mask[7:4]], S_DEC[lo ^ mask[3:0]]}`;
of a last group of `w` bits the first 4 of its result form an S group if `w >= 4`, and the rest is dropped. -/
def Obligations.ShapeOfDecode : Prop :=
  ∀ (rom : Tables) (s : Bits) (key : Nat),
    (spnDecode rom s key).length = 4 * (s.length / 4) ∧
    (∀ hi lo : Nibble, spnDecode rom (n2b hi.toNat 4 ++ n2b lo.toNat 4 ++ s) key =
      n2b (romRead rom.dec (hi ^^^ (keyMask key).extractLsb' 4 4)).toNat 4 ++
      n2b (romRead rom.dec (lo ^^^ (keyMask key).extractLsb' 0 4)).toNat 4 ++ spnDecode rom s key) ∧
    (s.length < 8 → spnDecode rom s key = applySBlock ((pmixGroup s (keyMask key)).take 4) rom.dec)

/-- R120, R119: the general round trip; for a length that is a multiple of 8 it is the source's contract. -/
def Obligations.DecodeUndoesEncode : Prop :=
  ∀ (rom : Tables) (s : Bits) (key : Nat), TablesInverse rom →
    spnDecode rom (spnEncode rom s key) key = s.take (4 * (s.length / 4)) ∧
    (s.length % 8 = 0 → spnDecode rom (spnEncode rom s key) key = s)

/-- R121: the other order, for a length that is a multiple of 4; and for another length it need not hold. -/
def Obligations.EncodeUndoesDecodeWhenAligned : Prop :=
  (∀ (rom : Tables) (s : Bits) (key : Nat), TablesInverse rom → s.length % 4 = 0 →
    spnEncode rom (spnDecode rom s key) key = s) ∧
  ∃ (rom : Tables) (s : Bits) (key : Nat), TablesInverse rom ∧
    spnEncode rom (spnDecode rom s key) key ≠ s.take (4 * (s.length / 4))

/-- R125: what a wrong key does, exactly. -/
def Obligations.WrongKeyExactly : Prop :=
  ∀ (rom : Tables) (s : Bits) (k₁ k₂ : Nat), TablesInverse rom →
    spnDecode rom (spnEncode rom s k₁) k₂ =
      applySBlock (xorBits (applySBlock s rom.enc) (pad (4 * (s.length / 4)) (keyMask (k₁ ^^^ k₂)))) rom.dec ∧
    (spnDecode rom (spnEncode rom s k₁) k₂ = s.take (4 * (s.length / 4)) ↔
      4 * (s.length / 4) = 0 ∨ (k₁ ^^^ k₂) % 256 = 0 ∨ (4 * (s.length / 4) = 4 ∧ (k₁ ^^^ k₂) % 16 = 0))

/-- R200: the group-boundary hazard: the ciphertext of 12 bits is the front of the ciphertext of a sequence longer by
at least 4 bits only if the two nibbles of the key byte are equal. -/
def Obligations.GroupBoundaryHazard : Prop :=
  ∀ (rom : Tables) (s t : Bits) (key : Nat), s.length = 12 → 4 ≤ t.length →
    (spnEncode rom s key = (spnEncode rom (s ++ t) key).take 12 ↔
      (keyMask key).extractLsb' 4 4 = (keyMask key).extractLsb' 0 4)

/-! ### The host's codec (spec 44_host_codec.md), outside the hardware -/

/-- R159, R156, R155: a text of single-byte characters, each valid, comes back; trailing bits short of a byte are
ignored; the result of `text_to_bits` has 8 bits a character. -/
def Obligations.TextRoundTrip : Prop :=
  ∀ (valid : Nat → Bool) (text : List Char) (extra : Bits),
    (∀ c ∈ text, c.toNat < 256 ∧ valid c.toNat = true) → extra.length < 8 →
    bitsToText valid (textToBits text ++ extra) = .ok text ∧ (textToBits text).length = 8 * text.length
end

