-- ==== Sys2Proof/Laws/Bits.lean ====
section
/-! SUPPORT. The small laws of `b2n`, `n2b` and `slice`: lengths, one more bit, the bits of a number (spec 00_scope.md
R8, R9). -/

namespace Sys2Proof.Machine

@[simp] theorem b2n_nil : b2n [] = 0 := rfl

theorem b2n_snoc (g : Bits) (b : Bit) : b2n (g ++ [b]) = 2 * b2n g + b.toNat := by
  unfold b2n
  rw [List.foldl_append, List.foldl_cons, List.foldl_nil]
  rw [← Nat.shiftLeft_add_eq_or_of_lt (by cases b <;> decide), Nat.shiftLeft_eq]
  omega

theorem b2n_lt (g : Bits) : b2n g < 2 ^ g.length := by
  induction g using List.reverseRecOn with
  | nil => simp
  | append_singleton g b ih =>
    have hb : b.toNat ≤ 1 := Bool.toNat_le b
    rw [b2n_snoc, List.length_append, List.length_singleton, Nat.pow_succ]
    omega

theorem b2n_append (g h : Bits) : b2n (g ++ h) = b2n g * 2 ^ h.length + b2n h := by
  induction h using List.reverseRecOn with
  | nil => simp
  | append_singleton h b ih =>
    rw [← List.append_assoc, b2n_snoc, ih, b2n_snoc, List.length_append, List.length_singleton, Nat.pow_succ]
    ring

@[simp] theorem length_n2b (x w : Nat) : (n2b x w).length = w := by simp [n2b]

@[simp] theorem n2b_zero (x : Nat) : n2b x 0 = [] := rfl

theorem getElem_n2b (x w i : Nat) (h : i < (n2b x w).length) : (n2b x w)[i] = x.testBit (w - 1 - i) := by
  simp [n2b]

theorem n2b_succ (x w : Nat) : n2b x (w + 1) = n2b (x / 2) w ++ [x.testBit 0] := by
  unfold n2b
  rw [List.range_succ, List.map_append]
  congr 1
  · apply List.map_congr_left
    intro i hi
    rw [List.mem_range] at hi
    rw [Nat.testBit_div_two]
    congr 1
    omega
  · simp

theorem b2n_n2b_mod (x w : Nat) : b2n (n2b x w) = x % 2 ^ w := by
  induction w generalizing x with
  | zero => simp [Nat.mod_one]
  | succ w ih =>
    rw [n2b_succ, b2n_snoc, ih, Nat.pow_succ', Nat.mod_mul]
    have : (x.testBit 0).toNat = x % 2 := by
      rw [Nat.testBit_zero]
      rcases Nat.mod_two_eq_zero_or_one x with h | h <;> simp [h]
    omega

theorem n2b_b2n_length (g : Bits) : n2b (b2n g) g.length = g := by
  induction g using List.reverseRecOn with
  | nil => rfl
  | append_singleton g b ih =>
    have hb : b.toNat ≤ 1 := Bool.toNat_le b
    rw [List.length_append, List.length_singleton, n2b_succ, b2n_snoc]
    have h1 : (2 * b2n g + b.toNat) / 2 = b2n g := by omega
    have h2 : (2 * b2n g + b.toNat).testBit 0 = b := by
      rw [Nat.testBit_zero]
      cases b <;> simp
    rw [h1, h2, ih]

theorem n2b_mod (x w : Nat) : n2b (x % 2 ^ w) w = n2b x w := by
  have h := n2b_b2n_length (n2b x w)
  rwa [b2n_n2b_mod, length_n2b] at h

theorem length_slice (s : Bits) (i j : Nat) : (slice s i j).length = min (j - i) (s.length - i) := by
  simp [slice]

/-- Cutting from the front of a longer sequence cuts the front part alone. -/
theorem slice_append_left (a b : Bits) (i j : Nat) (h : j ≤ a.length) : slice (a ++ b) i j = slice a i j := by
  unfold slice
  rw [List.drop_append, List.take_append_of_le_length]
  rw [List.length_drop]
  omega

/-- Cutting behind a prefix cuts the rest. -/
theorem slice_append_right (a b : Bits) (i j : Nat) : slice (a ++ b) (a.length + i) (a.length + j) = slice b i j := by
  unfold slice
  rw [List.drop_append, List.drop_eq_nil_of_le (by omega)]
  simp [Nat.add_sub_add_left]

end Sys2Proof.Machine
end

