-- ==== Sys2Proof/Laws/Stages.lean ====
section
/-! SUPPORT. The stage functions group by group: what one more group at the front adds, and what a sequence shorter
than a group gives (spec 40_sblock.md R83, R84; 41_pblock.md R102, R103). -/

namespace Sys2Proof.Machine

theorem length_pmixGroup (g : Bits) (m : Octet) : (pmixGroup g m).length = g.length := by
  simp [pmixGroup]

theorem applySBlock_short (s : Bits) (T : STable) (h : s.length < 4) : applySBlock s T = [] := by
  simp [applySBlock, Nat.div_eq_of_lt h]

theorem applySBlock_group (a b : Bits) (T : STable) (h : a.length = 4) :
    applySBlock (a ++ b) T = n2b (romRead T (BitVec.ofNat 4 (b2n a))).toNat 4 ++ applySBlock b T := by
  unfold applySBlock
  have hn : (a ++ b).length / 4 = b.length / 4 + 1 := by rw [List.length_append]; omega
  rw [hn, List.range_succ_eq_map, List.flatMap_cons, List.flatMap_map]
  congr 1
  · have h0 : slice (a ++ b) 0 4 = a := by rw [slice_append_left _ _ _ _ (by omega)]; simp [slice, h]
    rw [sbox4, Nat.mul_zero, h0]
  · apply List.flatMap_congr
    intro j _
    have hj : slice (a ++ b) (4 * (j + 1)) (4 * (j + 1) + 4) = slice b (4 * j) (4 * j + 4) := by
      have := slice_append_right a b (4 * j) (4 * j + 4)
      rw [h] at this
      rw [← this]
      congr 1 <;> omega
    simp only [Nat.succ_eq_add_one, hj]

theorem applyPBlock_nil (key : Nat) : applyPBlock [] key = [] := rfl

theorem applyPBlock_short (s : Bits) (key : Nat) (h : s.length ≤ 8) : applyPBlock s key = pmixGroup s (keyMask key) := by
  rcases Nat.eq_zero_or_pos s.length with h0 | h0
  · rw [List.length_eq_zero_iff.mp h0]; rfl
  · unfold applyPBlock
    have hn : (s.length + 7) / 8 = 1 := by omega
    have h1 : slice s 0 (min 8 s.length) = s := by simp [slice, Nat.min_eq_right h]
    simp [hn, h1]

theorem applyPBlock_group (a b : Bits) (key : Nat) (h : a.length = 8) :
    applyPBlock (a ++ b) key = pmixGroup a (keyMask key) ++ applyPBlock b key := by
  unfold applyPBlock
  have hn : ((a ++ b).length + 7) / 8 = (b.length + 7) / 8 + 1 := by rw [List.length_append]; omega
  rw [hn, List.range_succ_eq_map, List.flatMap_cons, List.flatMap_map]
  congr 1
  · have hm : min (8 * 0 + 8) (a ++ b).length = 8 := by rw [List.length_append]; omega
    have h0 : slice (a ++ b) 0 8 = a := by rw [slice_append_left _ _ _ _ (by omega)]; simp [slice, h]
    rw [hm, Nat.mul_zero, h0]
  · apply List.flatMap_congr
    intro j _
    have hm : min (8 * (j + 1) + 8) (a ++ b).length = a.length + min (8 * j + 8) b.length := by
      rw [List.length_append]; omega
    have hj := slice_append_right a b (8 * j) (min (8 * j + 8) b.length)
    have h8 : 8 * (j + 1) = a.length + 8 * j := by omega
    rw [Nat.succ_eq_add_one, hm, h8, hj]

/-- The bits of a sequence behind its last full group of 4: what waits in the S unit (R22, R83). -/
def sTail (s : Bits) : Bits := s.drop (4 * (s.length / 4))

/-- The bits of a sequence behind its last full group of 8: what waits in the P unit (R22, R102). -/
def pTail (s : Bits) : Bits := s.drop (8 * (s.length / 8))

/-- The full groups of 8 of a sequence (R102). -/
def pFull (s : Bits) : Bits := s.take (8 * (s.length / 8))

theorem length_sTail (s : Bits) : (sTail s).length = s.length % 4 := by
  rw [sTail, List.length_drop]; omega

theorem length_pTail (s : Bits) : (pTail s).length = s.length % 8 := by
  rw [pTail, List.length_drop]; omega

theorem sTail_short (s : Bits) (h : s.length < 4) : sTail s = s := by simp [sTail, Nat.div_eq_of_lt h]

theorem pTail_short (s : Bits) (h : s.length < 8) : pTail s = s := by simp [pTail, Nat.div_eq_of_lt h]

theorem pFull_short (s : Bits) (h : s.length < 8) : pFull s = [] := by simp [pFull, Nat.div_eq_of_lt h]

theorem sTail_group (a b : Bits) (h : a.length = 4) : sTail (a ++ b) = sTail b := by
  have hn : 4 * ((a ++ b).length / 4) = a.length + 4 * (b.length / 4) := by rw [List.length_append]; omega
  rw [sTail, hn, List.drop_append, List.drop_eq_nil_of_le (by omega), List.nil_append, Nat.add_sub_cancel_left, sTail]

theorem pTail_group (a b : Bits) (h : a.length = 8) : pTail (a ++ b) = pTail b := by
  have hn : 8 * ((a ++ b).length / 8) = a.length + 8 * (b.length / 8) := by rw [List.length_append]; omega
  rw [pTail, hn, List.drop_append, List.drop_eq_nil_of_le (by omega), List.nil_append, Nat.add_sub_cancel_left, pTail]

theorem pFull_group (a b : Bits) (h : a.length = 8) : pFull (a ++ b) = a ++ pFull b := by
  have hn : 8 * ((a ++ b).length / 8) = a.length + 8 * (b.length / 8) := by rw [List.length_append]; omega
  rw [pFull, hn, List.take_append, List.take_of_length_le (by omega), Nat.add_sub_cancel_left, pFull]

end Sys2Proof.Machine
end

