-- ==== Sys2Proof/Laws/State.lean ====
section
/-! SUPPORT. One lemma per field per named update of the state, so that no proof unfolds a record update. -/

namespace Sys2Proof.Machine

@[simp] theorem State.respond_op (q : Bits) (done : Bool) (s : State) : (s.respond q done).op = s.op := rfl
@[simp] theorem State.respond_key (q : Bits) (done : Bool) (s : State) : (s.respond q done).key = s.key := rfl
@[simp] theorem State.respond_busy (q : Bits) (done : Bool) (s : State) : (s.respond q done).busy = s.busy := rfl
@[simp] theorem State.respond_illop (q : Bits) (done : Bool) (s : State) : (s.respond q done).illop = s.illop := rfl
@[simp] theorem State.respond_seqerr (q : Bits) (done : Bool) (s : State) : (s.respond q done).seqerr = s.seqerr := rfl
@[simp] theorem State.respond_sacc (q : Bits) (done : Bool) (s : State) : (s.respond q done).sacc = s.sacc := rfl
@[simp] theorem State.respond_scnt (q : Bits) (done : Bool) (s : State) : (s.respond q done).scnt = s.scnt := rfl
@[simp] theorem State.respond_pacc (q : Bits) (done : Bool) (s : State) : (s.respond q done).pacc = s.pacc := rfl
@[simp] theorem State.respond_pcnt (q : Bits) (done : Bool) (s : State) : (s.respond q done).pcnt = s.pcnt := rfl
@[simp] theorem State.respond_rom (q : Bits) (done : Bool) (s : State) : (s.respond q done).rom = s.rom := rfl
@[simp] theorem State.respond_resp (q : Bits) (done : Bool) (s : State) : (s.respond q done).resp = { bits := q, done := done } := rfl
@[simp] theorem State.respond_keyIn (q : Bits) (done : Bool) (s : State) : (s.respond q done).keyIn = s.keyIn := rfl
@[simp] theorem State.respond_pending (q : Bits) (done : Bool) (s : State) : (s.respond q done).pending = s.pending := rfl
@[simp] theorem State.respond_sent (q : Bits) (done : Bool) (s : State) : (s.respond q done).sent = s.sent ++ [{ bits := q, done := done }] := rfl

@[simp] theorem State.noResponse_op (s : State) : (s.noResponse).op = s.op := rfl
@[simp] theorem State.noResponse_key (s : State) : (s.noResponse).key = s.key := rfl
@[simp] theorem State.noResponse_busy (s : State) : (s.noResponse).busy = s.busy := rfl
@[simp] theorem State.noResponse_illop (s : State) : (s.noResponse).illop = s.illop := rfl
@[simp] theorem State.noResponse_seqerr (s : State) : (s.noResponse).seqerr = s.seqerr := rfl
@[simp] theorem State.noResponse_sacc (s : State) : (s.noResponse).sacc = s.sacc := rfl
@[simp] theorem State.noResponse_scnt (s : State) : (s.noResponse).scnt = s.scnt := rfl
@[simp] theorem State.noResponse_pacc (s : State) : (s.noResponse).pacc = s.pacc := rfl
@[simp] theorem State.noResponse_pcnt (s : State) : (s.noResponse).pcnt = s.pcnt := rfl
@[simp] theorem State.noResponse_rom (s : State) : (s.noResponse).rom = s.rom := rfl
@[simp] theorem State.noResponse_resp (s : State) : (s.noResponse).resp = Response.none := rfl
@[simp] theorem State.noResponse_keyIn (s : State) : (s.noResponse).keyIn = s.keyIn := rfl
@[simp] theorem State.noResponse_pending (s : State) : (s.noResponse).pending = s.pending := rfl
@[simp] theorem State.noResponse_sent (s : State) : (s.noResponse).sent = s.sent := rfl

@[simp] theorem State.raise_op (f : HwFault) (s : State) : (s.raise f).op = s.op := rfl
@[simp] theorem State.raise_key (f : HwFault) (s : State) : (s.raise f).key = s.key := rfl
@[simp] theorem State.raise_busy (f : HwFault) (s : State) : (s.raise f).busy = s.busy := rfl
@[simp] theorem State.raise_illop (f : HwFault) (s : State) : (s.raise f).illop = illopAfter f s := rfl
@[simp] theorem State.raise_seqerr (f : HwFault) (s : State) : (s.raise f).seqerr = seqerrAfter f s := rfl
@[simp] theorem State.raise_sacc (f : HwFault) (s : State) : (s.raise f).sacc = s.sacc := rfl
@[simp] theorem State.raise_scnt (f : HwFault) (s : State) : (s.raise f).scnt = s.scnt := rfl
@[simp] theorem State.raise_pacc (f : HwFault) (s : State) : (s.raise f).pacc = s.pacc := rfl
@[simp] theorem State.raise_pcnt (f : HwFault) (s : State) : (s.raise f).pcnt = s.pcnt := rfl
@[simp] theorem State.raise_rom (f : HwFault) (s : State) : (s.raise f).rom = s.rom := rfl
@[simp] theorem State.raise_resp (f : HwFault) (s : State) : (s.raise f).resp = Response.none := rfl
@[simp] theorem State.raise_keyIn (f : HwFault) (s : State) : (s.raise f).keyIn = s.keyIn := rfl
@[simp] theorem State.raise_pending (f : HwFault) (s : State) : (s.raise f).pending = s.pending := rfl
@[simp] theorem State.raise_sent (f : HwFault) (s : State) : (s.raise f).sent = s.sent ++ [Response.none] := rfl

@[simp] theorem State.resetRegisters_op (s : State) : (s.resetRegisters).op = 0#3 := rfl
@[simp] theorem State.resetRegisters_key (s : State) : (s.resetRegisters).key = 0#128 := rfl
@[simp] theorem State.resetRegisters_busy (s : State) : (s.resetRegisters).busy = false := rfl
@[simp] theorem State.resetRegisters_illop (s : State) : (s.resetRegisters).illop = false := rfl
@[simp] theorem State.resetRegisters_seqerr (s : State) : (s.resetRegisters).seqerr = false := rfl
@[simp] theorem State.resetRegisters_sacc (s : State) : (s.resetRegisters).sacc = 0#4 := rfl
@[simp] theorem State.resetRegisters_scnt (s : State) : (s.resetRegisters).scnt = 0#2 := rfl
@[simp] theorem State.resetRegisters_pacc (s : State) : (s.resetRegisters).pacc = 0#8 := rfl
@[simp] theorem State.resetRegisters_pcnt (s : State) : (s.resetRegisters).pcnt = 0#3 := rfl
@[simp] theorem State.resetRegisters_rom (s : State) : (s.resetRegisters).rom = s.rom := rfl
@[simp] theorem State.resetRegisters_resp (s : State) : (s.resetRegisters).resp = Response.none := rfl
@[simp] theorem State.resetRegisters_keyIn (s : State) : (s.resetRegisters).keyIn = s.keyIn := rfl
@[simp] theorem State.resetRegisters_pending (s : State) : (s.resetRegisters).pending = s.pending := rfl
@[simp] theorem State.resetRegisters_sent (s : State) : (s.resetRegisters).sent = s.sent := rfl

@[simp] theorem State.openTransaction_op (c : BitVec 3) (k : KeyWord) (s : State) : (s.openTransaction c k).op = c := rfl
@[simp] theorem State.openTransaction_key (c : BitVec 3) (k : KeyWord) (s : State) : (s.openTransaction c k).key = k := rfl
@[simp] theorem State.openTransaction_busy (c : BitVec 3) (k : KeyWord) (s : State) : (s.openTransaction c k).busy = true := rfl
@[simp] theorem State.openTransaction_illop (c : BitVec 3) (k : KeyWord) (s : State) : (s.openTransaction c k).illop = s.illop := rfl
@[simp] theorem State.openTransaction_seqerr (c : BitVec 3) (k : KeyWord) (s : State) : (s.openTransaction c k).seqerr = s.seqerr := rfl
@[simp] theorem State.openTransaction_sacc (c : BitVec 3) (k : KeyWord) (s : State) : (s.openTransaction c k).sacc = 0#4 := rfl
@[simp] theorem State.openTransaction_scnt (c : BitVec 3) (k : KeyWord) (s : State) : (s.openTransaction c k).scnt = 0#2 := rfl
@[simp] theorem State.openTransaction_pacc (c : BitVec 3) (k : KeyWord) (s : State) : (s.openTransaction c k).pacc = 0#8 := rfl
@[simp] theorem State.openTransaction_pcnt (c : BitVec 3) (k : KeyWord) (s : State) : (s.openTransaction c k).pcnt = 0#3 := rfl
@[simp] theorem State.openTransaction_rom (c : BitVec 3) (k : KeyWord) (s : State) : (s.openTransaction c k).rom = s.rom := rfl
@[simp] theorem State.openTransaction_resp (c : BitVec 3) (k : KeyWord) (s : State) : (s.openTransaction c k).resp = s.resp := rfl
@[simp] theorem State.openTransaction_keyIn (c : BitVec 3) (k : KeyWord) (s : State) : (s.openTransaction c k).keyIn = s.keyIn := rfl
@[simp] theorem State.openTransaction_pending (c : BitVec 3) (k : KeyWord) (s : State) : (s.openTransaction c k).pending = s.pending := rfl
@[simp] theorem State.openTransaction_sent (c : BitVec 3) (k : KeyWord) (s : State) : (s.openTransaction c k).sent = s.sent := rfl

@[simp] theorem State.closeTransaction_op (s : State) : (s.closeTransaction).op = s.op := rfl
@[simp] theorem State.closeTransaction_key (s : State) : (s.closeTransaction).key = s.key := rfl
@[simp] theorem State.closeTransaction_busy (s : State) : (s.closeTransaction).busy = false := rfl
@[simp] theorem State.closeTransaction_illop (s : State) : (s.closeTransaction).illop = s.illop := rfl
@[simp] theorem State.closeTransaction_seqerr (s : State) : (s.closeTransaction).seqerr = s.seqerr := rfl
@[simp] theorem State.closeTransaction_sacc (s : State) : (s.closeTransaction).sacc = s.sacc := rfl
@[simp] theorem State.closeTransaction_scnt (s : State) : (s.closeTransaction).scnt = s.scnt := rfl
@[simp] theorem State.closeTransaction_pacc (s : State) : (s.closeTransaction).pacc = s.pacc := rfl
@[simp] theorem State.closeTransaction_pcnt (s : State) : (s.closeTransaction).pcnt = s.pcnt := rfl
@[simp] theorem State.closeTransaction_rom (s : State) : (s.closeTransaction).rom = s.rom := rfl
@[simp] theorem State.closeTransaction_resp (s : State) : (s.closeTransaction).resp = s.resp := rfl
@[simp] theorem State.closeTransaction_keyIn (s : State) : (s.closeTransaction).keyIn = s.keyIn := rfl
@[simp] theorem State.closeTransaction_pending (s : State) : (s.closeTransaction).pending = s.pending := rfl
@[simp] theorem State.closeTransaction_sent (s : State) : (s.closeTransaction).sent = s.sent := rfl

@[simp] theorem State.setS_op (acc : Nibble) (cnt : BitVec 2) (s : State) : (s.setS acc cnt).op = s.op := rfl
@[simp] theorem State.setS_key (acc : Nibble) (cnt : BitVec 2) (s : State) : (s.setS acc cnt).key = s.key := rfl
@[simp] theorem State.setS_busy (acc : Nibble) (cnt : BitVec 2) (s : State) : (s.setS acc cnt).busy = s.busy := rfl
@[simp] theorem State.setS_illop (acc : Nibble) (cnt : BitVec 2) (s : State) : (s.setS acc cnt).illop = s.illop := rfl
@[simp] theorem State.setS_seqerr (acc : Nibble) (cnt : BitVec 2) (s : State) : (s.setS acc cnt).seqerr = s.seqerr := rfl
@[simp] theorem State.setS_sacc (acc : Nibble) (cnt : BitVec 2) (s : State) : (s.setS acc cnt).sacc = acc := rfl
@[simp] theorem State.setS_scnt (acc : Nibble) (cnt : BitVec 2) (s : State) : (s.setS acc cnt).scnt = cnt := rfl
@[simp] theorem State.setS_pacc (acc : Nibble) (cnt : BitVec 2) (s : State) : (s.setS acc cnt).pacc = s.pacc := rfl
@[simp] theorem State.setS_pcnt (acc : Nibble) (cnt : BitVec 2) (s : State) : (s.setS acc cnt).pcnt = s.pcnt := rfl
@[simp] theorem State.setS_rom (acc : Nibble) (cnt : BitVec 2) (s : State) : (s.setS acc cnt).rom = s.rom := rfl
@[simp] theorem State.setS_resp (acc : Nibble) (cnt : BitVec 2) (s : State) : (s.setS acc cnt).resp = s.resp := rfl
@[simp] theorem State.setS_keyIn (acc : Nibble) (cnt : BitVec 2) (s : State) : (s.setS acc cnt).keyIn = s.keyIn := rfl
@[simp] theorem State.setS_pending (acc : Nibble) (cnt : BitVec 2) (s : State) : (s.setS acc cnt).pending = s.pending := rfl
@[simp] theorem State.setS_sent (acc : Nibble) (cnt : BitVec 2) (s : State) : (s.setS acc cnt).sent = s.sent := rfl

@[simp] theorem State.setP_op (acc : Octet) (cnt : BitVec 3) (s : State) : (s.setP acc cnt).op = s.op := rfl
@[simp] theorem State.setP_key (acc : Octet) (cnt : BitVec 3) (s : State) : (s.setP acc cnt).key = s.key := rfl
@[simp] theorem State.setP_busy (acc : Octet) (cnt : BitVec 3) (s : State) : (s.setP acc cnt).busy = s.busy := rfl
@[simp] theorem State.setP_illop (acc : Octet) (cnt : BitVec 3) (s : State) : (s.setP acc cnt).illop = s.illop := rfl
@[simp] theorem State.setP_seqerr (acc : Octet) (cnt : BitVec 3) (s : State) : (s.setP acc cnt).seqerr = s.seqerr := rfl
@[simp] theorem State.setP_sacc (acc : Octet) (cnt : BitVec 3) (s : State) : (s.setP acc cnt).sacc = s.sacc := rfl
@[simp] theorem State.setP_scnt (acc : Octet) (cnt : BitVec 3) (s : State) : (s.setP acc cnt).scnt = s.scnt := rfl
@[simp] theorem State.setP_pacc (acc : Octet) (cnt : BitVec 3) (s : State) : (s.setP acc cnt).pacc = acc := rfl
@[simp] theorem State.setP_pcnt (acc : Octet) (cnt : BitVec 3) (s : State) : (s.setP acc cnt).pcnt = cnt := rfl
@[simp] theorem State.setP_rom (acc : Octet) (cnt : BitVec 3) (s : State) : (s.setP acc cnt).rom = s.rom := rfl
@[simp] theorem State.setP_resp (acc : Octet) (cnt : BitVec 3) (s : State) : (s.setP acc cnt).resp = s.resp := rfl
@[simp] theorem State.setP_keyIn (acc : Octet) (cnt : BitVec 3) (s : State) : (s.setP acc cnt).keyIn = s.keyIn := rfl
@[simp] theorem State.setP_pending (acc : Octet) (cnt : BitVec 3) (s : State) : (s.setP acc cnt).pending = s.pending := rfl
@[simp] theorem State.setP_sent (acc : Octet) (cnt : BitVec 3) (s : State) : (s.setP acc cnt).sent = s.sent := rfl

@[simp] theorem State.dropCycle_op (s : State) : (s.dropCycle).op = s.op := rfl
@[simp] theorem State.dropCycle_key (s : State) : (s.dropCycle).key = s.key := rfl
@[simp] theorem State.dropCycle_busy (s : State) : (s.dropCycle).busy = s.busy := rfl
@[simp] theorem State.dropCycle_illop (s : State) : (s.dropCycle).illop = s.illop := rfl
@[simp] theorem State.dropCycle_seqerr (s : State) : (s.dropCycle).seqerr = s.seqerr := rfl
@[simp] theorem State.dropCycle_sacc (s : State) : (s.dropCycle).sacc = s.sacc := rfl
@[simp] theorem State.dropCycle_scnt (s : State) : (s.dropCycle).scnt = s.scnt := rfl
@[simp] theorem State.dropCycle_pacc (s : State) : (s.dropCycle).pacc = s.pacc := rfl
@[simp] theorem State.dropCycle_pcnt (s : State) : (s.dropCycle).pcnt = s.pcnt := rfl
@[simp] theorem State.dropCycle_rom (s : State) : (s.dropCycle).rom = s.rom := rfl
@[simp] theorem State.dropCycle_resp (s : State) : (s.dropCycle).resp = s.resp := rfl
@[simp] theorem State.dropCycle_keyIn (s : State) : (s.dropCycle).keyIn = s.keyIn := rfl
@[simp] theorem State.dropCycle_pending (s : State) : (s.dropCycle).pending = s.pending.tail := rfl
@[simp] theorem State.dropCycle_sent (s : State) : (s.dropCycle).sent = s.sent := rfl

@[simp] theorem State.sampleKey_op (k : KeyWord) (s : State) : (s.sampleKey k).op = s.op := rfl
@[simp] theorem State.sampleKey_key (k : KeyWord) (s : State) : (s.sampleKey k).key = s.key := rfl
@[simp] theorem State.sampleKey_busy (k : KeyWord) (s : State) : (s.sampleKey k).busy = s.busy := rfl
@[simp] theorem State.sampleKey_illop (k : KeyWord) (s : State) : (s.sampleKey k).illop = s.illop := rfl
@[simp] theorem State.sampleKey_seqerr (k : KeyWord) (s : State) : (s.sampleKey k).seqerr = s.seqerr := rfl
@[simp] theorem State.sampleKey_sacc (k : KeyWord) (s : State) : (s.sampleKey k).sacc = s.sacc := rfl
@[simp] theorem State.sampleKey_scnt (k : KeyWord) (s : State) : (s.sampleKey k).scnt = s.scnt := rfl
@[simp] theorem State.sampleKey_pacc (k : KeyWord) (s : State) : (s.sampleKey k).pacc = s.pacc := rfl
@[simp] theorem State.sampleKey_pcnt (k : KeyWord) (s : State) : (s.sampleKey k).pcnt = s.pcnt := rfl
@[simp] theorem State.sampleKey_rom (k : KeyWord) (s : State) : (s.sampleKey k).rom = s.rom := rfl
@[simp] theorem State.sampleKey_resp (k : KeyWord) (s : State) : (s.sampleKey k).resp = s.resp := rfl
@[simp] theorem State.sampleKey_keyIn (k : KeyWord) (s : State) : (s.sampleKey k).keyIn = k := rfl
@[simp] theorem State.sampleKey_pending (k : KeyWord) (s : State) : (s.sampleKey k).pending = s.pending := rfl
@[simp] theorem State.sampleKey_sent (k : KeyWord) (s : State) : (s.sampleKey k).sent = s.sent := rfl

@[simp] theorem State.present_op (c : Cycle) (s : State) : (s.present c).op = s.op := rfl
@[simp] theorem State.present_key (c : Cycle) (s : State) : (s.present c).key = s.key := rfl
@[simp] theorem State.present_busy (c : Cycle) (s : State) : (s.present c).busy = s.busy := rfl
@[simp] theorem State.present_illop (c : Cycle) (s : State) : (s.present c).illop = s.illop := rfl
@[simp] theorem State.present_seqerr (c : Cycle) (s : State) : (s.present c).seqerr = s.seqerr := rfl
@[simp] theorem State.present_sacc (c : Cycle) (s : State) : (s.present c).sacc = s.sacc := rfl
@[simp] theorem State.present_scnt (c : Cycle) (s : State) : (s.present c).scnt = s.scnt := rfl
@[simp] theorem State.present_pacc (c : Cycle) (s : State) : (s.present c).pacc = s.pacc := rfl
@[simp] theorem State.present_pcnt (c : Cycle) (s : State) : (s.present c).pcnt = s.pcnt := rfl
@[simp] theorem State.present_rom (c : Cycle) (s : State) : (s.present c).rom = s.rom := rfl
@[simp] theorem State.present_resp (c : Cycle) (s : State) : (s.present c).resp = s.resp := rfl
@[simp] theorem State.present_keyIn (c : Cycle) (s : State) : (s.present c).keyIn = s.keyIn := rfl
@[simp] theorem State.present_pending (c : Cycle) (s : State) : (s.present c).pending = c :: s.pending := rfl
@[simp] theorem State.present_sent (c : Cycle) (s : State) : (s.present c).sent = s.sent := rfl

@[simp] theorem State.reset_busy : State.reset.busy = false := rfl
@[simp] theorem State.reset_op : State.reset.op = 0#3 := rfl
@[simp] theorem State.reset_pending : State.reset.pending = [] := rfl
@[simp] theorem State.reset_sent : State.reset.sent = [] := rfl
@[simp] theorem Response.none_bits : Response.none.bits = [] := rfl
@[simp] theorem Response.none_done : Response.none.done = false := rfl
@[simp] theorem illopAfter_illegalCommand (s : State) : illopAfter .illegalCommand s = true := rfl
@[simp] theorem illopAfter_sequenceError (s : State) : illopAfter .sequenceError s = s.illop := rfl
@[simp] theorem seqerrAfter_illegalCommand (s : State) : seqerrAfter .illegalCommand s = s.seqerr := rfl
@[simp] theorem seqerrAfter_sequenceError (s : State) : seqerrAfter .sequenceError s = true := rfl

end Sys2Proof.Machine
end

