-- ==== Sys2Proof/Laws/Units.lean ====
section
/-! SUPPORT. One lemma per unit operation that says everything it can do, in terms of the bits that wait in the unit
(spec 43_stream_commands.md R139 to R142). Callers cite these and unfold no unit. -/

namespace Sys2Proof.Machine

theorem saccWith_toNat (s : State) (b : Bit) (h : s.sacc.toNat < 8) :
    (saccWith s b).toNat = 2 * s.sacc.toNat + b.toNat := by
  simp [saccWith, BitVec.toNat_concat, Nat.mod_eq_of_lt h, Nat.mul_comm]

theorem paccWith_toNat (s : State) (b : Bit) (h : s.pacc.toNat < 128) :
    (paccWith s b).toNat = 2 * s.pacc.toNat + b.toNat := by
  simp [paccWith, BitVec.toNat_concat, Nat.mod_eq_of_lt h, Nat.mul_comm]

theorem maskOf_eq_keyMask (s : State) : maskOf s = keyMask s.key.toNat := by
  apply BitVec.eq_of_toNat_eq
  simp [maskOf, keyMask]

theorem SWaiting.length_le {g : Bits} {s : State} (h : SWaiting g s) : g.length ≤ 3 := by
  have := s.scnt.isLt
  have := h.count
  omega

theorem PWaiting.length_le {g : Bits} {s : State} (h : PWaiting g s) : g.length ≤ 7 := by
  have := s.pcnt.isLt
  have := h.count
  omega

theorem sWaiting_setS (g : Bits) (s : State) (h : g.length ≤ 3) :
    SWaiting g (s.setS (BitVec.ofNat 4 (b2n g)) (BitVec.ofNat 2 g.length)) := by
  have h1 := b2n_lt g
  have h2 : 2 ^ g.length ≤ 2 ^ 3 := Nat.pow_le_pow_right (by omega) h
  constructor
  · simp; omega
  · simp; omega

theorem pWaiting_setP (g : Bits) (s : State) (h : g.length ≤ 7) :
    PWaiting g (s.setP (BitVec.ofNat 8 (b2n g)) (BitVec.ofNat 3 g.length)) := by
  have h1 := b2n_lt g
  have h2 : 2 ^ g.length ≤ 2 ^ 7 := Nat.pow_le_pow_right (by omega) h
  constructor
  · simp; omega
  · simp; omega

theorem SWaiting.setS_self {g : Bits} {s : State} (h : SWaiting g s) :
    s.setS (BitVec.ofNat 4 (b2n g)) (BitVec.ofNat 2 g.length) = s := by
  have h1 : BitVec.ofNat 4 (b2n g) = s.sacc := by rw [← h.value]; simp
  have h2 : BitVec.ofNat 2 g.length = s.scnt := by rw [← h.count]; simp
  rw [h1, h2]; rfl

theorem PWaiting.setP_self {g : Bits} {s : State} (h : PWaiting g s) :
    s.setP (BitVec.ofNat 8 (b2n g)) (BitVec.ofNat 3 g.length) = s := by
  have h1 : BitVec.ofNat 8 (b2n g) = s.pacc := by rw [← h.value]; simp
  have h2 : BitVec.ofNat 3 g.length = s.pcnt := by rw [← h.count]; simp
  rw [h1, h2]; rfl

theorem SWaiting.saccWith {g : Bits} {s : State} (h : SWaiting g s) (b : Bit) :
    saccWith s b = BitVec.ofNat 4 (b2n (g ++ [b])) := by
  have h1 := b2n_lt g
  have h2 : 2 ^ g.length ≤ 2 ^ 3 := Nat.pow_le_pow_right (by omega) h.length_le
  have hb : b.toNat ≤ 1 := Bool.toNat_le b
  apply BitVec.eq_of_toNat_eq
  rw [saccWith_toNat _ _ (by rw [h.value]; omega), h.value, b2n_snoc, BitVec.toNat_ofNat, Nat.mod_eq_of_lt (by omega)]

theorem PWaiting.paccWith {g : Bits} {s : State} (h : PWaiting g s) (b : Bit) :
    paccWith s b = BitVec.ofNat 8 (b2n (g ++ [b])) := by
  have h1 := b2n_lt g
  have h2 : 2 ^ g.length ≤ 2 ^ 7 := Nat.pow_le_pow_right (by omega) h.length_le
  have hb : b.toNat ≤ 1 := Bool.toNat_le b
  apply BitVec.eq_of_toNat_eq
  rw [paccWith_toNat _ _ (by rw [h.value]; omega), h.value, b2n_snoc, BitVec.toNat_ofNat, Nat.mod_eq_of_lt (by omega)]

/-- All that a fed S unit does: it releases the S stage of the waiting and the new bits, and keeps their short last
group. -/
theorem sFeed_eq (T : STable) (xs : Bits) {g : Bits} {s : State} (h : SWaiting g s) :
    sFeed T xs s = (applySBlock (g ++ xs) T,
      s.setS (BitVec.ofNat 4 (b2n (sTail (g ++ xs)))) (BitVec.ofNat 2 (sTail (g ++ xs)).length)) := by
  induction xs generalizing g s with
  | nil =>
    have hl := h.length_le
    rw [List.append_nil, applySBlock_short g T (by omega), sTail_short g (by omega), h.setS_self]
    rfl
  | cons x xs ih =>
    have hl := h.length_le
    have hx : g ++ x :: xs = (g ++ [x]) ++ xs := by simp
    by_cases h3 : g.length = 3
    · have hc : s.scnt = 3#2 := by apply BitVec.eq_of_toNat_eq; rw [h.count, h3]; rfl
      have hp : sPush T x s = (n2b (romRead T (BitVec.ofNat 4 (b2n (g ++ [x])))).toNat 4, s.setS 0#4 0#2) := by
        rw [sPush, if_pos hc, h.saccWith]
      have hw : SWaiting [] (s.setS 0#4 0#2) := ⟨rfl, rfl⟩
      have hgl : (g ++ [x]).length = 4 := by simp [h3]
      rw [sFeed, hp, ih hw, hx, applySBlock_group _ _ _ hgl, sTail_group _ _ hgl]
      rfl
    · have hc : s.scnt ≠ 3#2 := fun e => h3 (by rw [← h.count, e]; rfl)
      have hn : s.scnt + 1#2 = BitVec.ofNat 2 (g ++ [x]).length := by
        apply BitVec.eq_of_toNat_eq
        rw [BitVec.toNat_add, h.count, List.length_append]
        simp
      have hp : sPush T x s = ([], s.setS (BitVec.ofNat 4 (b2n (g ++ [x]))) (BitVec.ofNat 2 (g ++ [x]).length)) := by
        rw [sPush, if_neg hc, h.saccWith, hn]
      have hw := sWaiting_setS (g ++ [x]) s (by simp; omega)
      rw [sFeed, hp, ih hw, hx]
      rfl

/-- All that a fed P unit does: it releases the P stage of the full groups among the waiting and the new bits, and
keeps their short last group. -/
theorem pFeed_eq (xs : Bits) {g : Bits} {s : State} (h : PWaiting g s) :
    pFeed xs s = (applyPBlock (pFull (g ++ xs)) s.key.toNat,
      s.setP (BitVec.ofNat 8 (b2n (pTail (g ++ xs)))) (BitVec.ofNat 3 (pTail (g ++ xs)).length)) := by
  induction xs generalizing g s with
  | nil =>
    have hl := h.length_le
    rw [List.append_nil, pFull_short g (by omega), pTail_short g (by omega), h.setP_self]
    rfl
  | cons x xs ih =>
    have hl := h.length_le
    have hx : g ++ x :: xs = (g ++ [x]) ++ xs := by simp
    by_cases h7 : g.length = 7
    · have hc : s.pcnt = 7#3 := by apply BitVec.eq_of_toNat_eq; rw [h.count, h7]; rfl
      have hgl : (g ++ [x]).length = 8 := by simp [h7]
      have hv : (BitVec.ofNat 8 (b2n (g ++ [x])) ^^^ maskOf s).toNat = b2n (g ++ [x]) ^^^ (keyMask s.key.toNat).toNat := by
        have := b2n_lt (g ++ [x])
        rw [hgl] at this
        rw [BitVec.toNat_xor, maskOf_eq_keyMask, BitVec.toNat_ofNat, Nat.mod_eq_of_lt this]
      have hp : pPush x s = (pmixGroup (g ++ [x]) (keyMask s.key.toNat), s.setP 0#8 0#3) := by
        rw [pPush, if_pos hc, h.paccWith, hv, pmixGroup, hgl]
      have hw : PWaiting [] (s.setP 0#8 0#3) := ⟨rfl, rfl⟩
      rw [pFeed, hp, ih hw, hx, pFull_group _ _ hgl, applyPBlock_group _ _ _ hgl, pTail_group _ _ hgl]
      rfl
    · have hc : s.pcnt ≠ 7#3 := fun e => h7 (by rw [← h.count, e]; rfl)
      have hn : s.pcnt + 1#3 = BitVec.ofNat 3 (g ++ [x]).length := by
        apply BitVec.eq_of_toNat_eq
        rw [BitVec.toNat_add, h.count, List.length_append]
        simp
      have hp : pPush x s = ([], s.setP (BitVec.ofNat 8 (b2n (g ++ [x]))) (BitVec.ofNat 3 (g ++ [x]).length)) := by
        rw [pPush, if_neg hc, h.paccWith, hn]
      have hw := pWaiting_setP (g ++ [x]) s (by simp; omega)
      rw [pFeed, hp, ih hw, hx]
      rfl

theorem sFeed_singleton (T : STable) (b : Bit) (s : State) : sFeed T [b] s = sPush T b s := by
  simp [sFeed]

theorem pFeed_singleton (b : Bit) (s : State) : pFeed [b] s = pPush b s := by
  simp [pFeed]

theorem sTail_snoc (g : Bits) (b : Bit) (h : g.length ≤ 3) :
    sTail (g ++ [b]) = if g.length = 3 then [] else g ++ [b] := by
  split_ifs with h3
  · rw [← List.append_nil (g ++ [b]), sTail_group _ _ (by simp [h3])]
    rfl
  · exact sTail_short _ (by simp; omega)

theorem pTail_snoc (g : Bits) (b : Bit) (h : g.length ≤ 7) :
    pTail (g ++ [b]) = if g.length = 7 then [] else g ++ [b] := by
  split_ifs with h7
  · rw [← List.append_nil (g ++ [b]), pTail_group _ _ (by simp [h7])]
    rfl
  · exact pTail_short _ (by simp; omega)

/-- All that one bit pushed into the S unit does. -/
theorem sPush_eq (T : STable) (b : Bit) {g : Bits} {s : State} (h : SWaiting g s) :
    sPush T b s = (applySBlock (g ++ [b]) T,
      s.setS (BitVec.ofNat 4 (b2n (if g.length = 3 then [] else g ++ [b])))
        (BitVec.ofNat 2 (if g.length = 3 then [] else g ++ [b]).length)) := by
  rw [← sFeed_singleton, sFeed_eq T [b] h, sTail_snoc g b h.length_le]

/-- All that one bit pushed into the P unit does. -/
theorem pPush_eq (b : Bit) {g : Bits} {s : State} (h : PWaiting g s) :
    pPush b s = (applyPBlock (pFull (g ++ [b])) s.key.toNat,
      s.setP (BitVec.ofNat 8 (b2n (if g.length = 7 then [] else g ++ [b])))
        (BitVec.ofNat 3 (if g.length = 7 then [] else g ++ [b]).length)) := by
  rw [← pFeed_singleton, pFeed_eq [b] h, pTail_snoc g b h.length_le]

/-- All that a flushed P unit does: it releases its waiting bits, mixed at their own width, and is empty. -/
theorem pFlush_eq {g : Bits} {s : State} (h : PWaiting g s) :
    pFlush s = (pmixGroup g (keyMask s.key.toNat), s.setP 0#8 0#3) := by
  rw [pFlush]
  congr 1
  by_cases h0 : g.length = 0
  · have hc : s.pcnt = 0#3 := by apply BitVec.eq_of_toNat_eq; rw [h.count, h0]; rfl
    rw [if_pos hc, List.length_eq_zero_iff.mp h0]
    rfl
  · have hc : s.pcnt ≠ 0#3 := fun e => h0 (by rw [← h.count, e]; rfl)
    rw [if_neg hc, BitVec.toNat_xor, maskOf_eq_keyMask, h.value, h.count, pmixGroup]

/-- Every state has the bits its accumulators hold, when nothing stands above their counts (R32(b)). -/
theorem exists_sWaiting (s : State) (h : s.sacc.toNat < 2 ^ s.scnt.toNat) : ∃ g, SWaiting g s :=
  ⟨n2b s.sacc.toNat s.scnt.toNat, by rw [length_n2b], by rw [b2n_n2b_mod, Nat.mod_eq_of_lt h]⟩

theorem exists_pWaiting (s : State) (h : s.pacc.toNat < 2 ^ s.pcnt.toNat) : ∃ g, PWaiting g s :=
  ⟨n2b s.pacc.toNat s.pcnt.toNat, by rw [length_n2b], by rw [b2n_n2b_mod, Nat.mod_eq_of_lt h]⟩

end Sys2Proof.Machine
end

