-- ==== Sys2Proof/Laws/Meanings.lean ====
section
/-! SUPPORT. What a command and a step can do, said once: which registers the units write, one case list for `exec`
and one for `step` (spec 43_stream_commands.md R135). Proofs over all commands cite these and unfold no meaning. -/

namespace Sys2Proof.Machine

@[simp] theorem opOfCode_opCode (op : Op) : opOfCode (opCode op) = some op := by cases op <;> rfl

theorem opCode_of_opOfCode {c : BitVec 3} {op : Op} (h : opOfCode c = some op) : c = opCode op := by
  revert h
  unfold opOfCode
  split_ifs <;> intro h <;> simp_all [opCode]
  all_goals subst h; rfl

theorem startAccepted_eq (s : State) : startAccepted s = !s.busy := rfl

theorem dataAccepted_eq (s : State) : dataAccepted s = s.busy := rfl

theorem exec_start (op : Op) (s : State) : exec op.start s = startCommon op s := by cases op <;> rfl

/-- The S unit writes its own two registers. -/
theorem sFeed_snd (T : STable) (xs : Bits) (s : State) : ∃ a c, (sFeed T xs s).2 = s.setS a c := by
  induction xs generalizing s with
  | nil => exact ⟨s.sacc, s.scnt, rfl⟩
  | cons x xs ih =>
    have hp : ∃ a c, (sPush T x s).2 = s.setS a c := by
      unfold sPush
      split_ifs
      · exact ⟨_, _, rfl⟩
      · exact ⟨_, _, rfl⟩
    obtain ⟨a, c, h⟩ := hp
    obtain ⟨a', c', h'⟩ := ih (s.setS a c)
    exact ⟨a', c', by rw [sFeed, h, h']; rfl⟩

/-- The P unit writes its own two registers. -/
theorem pFeed_snd (xs : Bits) (s : State) : ∃ a c, (pFeed xs s).2 = s.setP a c := by
  induction xs generalizing s with
  | nil => exact ⟨s.pacc, s.pcnt, rfl⟩
  | cons x xs ih =>
    have hp : ∃ a c, (pPush x s).2 = s.setP a c := by
      unfold pPush
      split_ifs
      · exact ⟨_, _, rfl⟩
      · exact ⟨_, _, rfl⟩
    obtain ⟨a, c, h⟩ := hp
    obtain ⟨a', c', h'⟩ := ih (s.setP a c)
    exact ⟨a', c', by rw [pFeed, h, h']; rfl⟩

theorem sPush_snd (T : STable) (b : Bit) (s : State) : ∃ a c, (sPush T b s).2 = s.setS a c := by
  simpa [sFeed_singleton] using sFeed_snd T [b] s

theorem pPush_snd (b : Bit) (s : State) : ∃ a c, (pPush b s).2 = s.setP a c := by
  simpa [pFeed_singleton] using pFeed_snd [b] s

/-- An accepted BIT writes the registers of the two units and nothing else (R143). -/
theorem pushBit_snd (op : Op) (b : Bit) (s : State) :
    ∃ a c p n, (pushBit op b s).2 = (s.setS a c).setP p n := by
  cases op
  · obtain ⟨a, c, h⟩ := sPush_snd s.rom.enc b s
    exact ⟨a, c, s.pacc, s.pcnt, h⟩
  · obtain ⟨a, c, h⟩ := sPush_snd s.rom.dec b s
    exact ⟨a, c, s.pacc, s.pcnt, h⟩
  · obtain ⟨p, n, h⟩ := pPush_snd b s
    exact ⟨s.sacc, s.scnt, p, n, h⟩
  · obtain ⟨a, c, h⟩ := sPush_snd s.rom.enc b s
    obtain ⟨p, n, h'⟩ := pFeed_snd (sPush s.rom.enc b s).1 (sPush s.rom.enc b s).2
    exact ⟨a, c, p, n, by rw [pushBit, h', h]⟩
  · obtain ⟨p, n, h⟩ := pPush_snd b s
    obtain ⟨a, c, h'⟩ := sFeed_snd s.rom.dec (pPush b s).1 (pPush b s).2
    exact ⟨a, c, p, n, by rw [pushBit, h', h]; rfl⟩

/-- An accepted END writes the registers of the two units, and `BUSY`, and nothing else (R144). -/
theorem flushUnits_snd (op : Op) (s : State) : ∃ a c p n, (flushUnits op s).2 = (s.setS a c).setP p n := by
  cases op
  · exact ⟨0#4, 0#2, s.pacc, s.pcnt, rfl⟩
  · exact ⟨0#4, 0#2, s.pacc, s.pcnt, rfl⟩
  · exact ⟨s.sacc, s.scnt, 0#8, 0#3, rfl⟩
  · exact ⟨0#4, 0#2, 0#8, 0#3, rfl⟩
  · obtain ⟨a, c, h⟩ := sFeed_snd s.rom.dec (pFlush s).1 (pFlush s).2
    exact ⟨0#4, 0#2, 0#8, 0#3, by rw [flushUnits, sFlush, h]; rfl⟩

/-- The five things a command that answers a next state has done (R135). -/
theorem exec_next_cases {i : Instr} {s t : State} (h : exec i s = .next t) :
    (i = .nop ∧ t = s.respond [] false) ∨
    (((∃ op, i = Op.start op) ∧ s.busy = true ∨ ((∃ b, i = .bit b) ∨ i = .endCmd) ∧ s.busy = false) ∧
      t = s.raise .sequenceError) ∨
    (∃ op, i = Op.start op ∧ s.busy = false ∧
      t = (s.openTransaction (opCode op) s.keyIn).respond [] false) ∨
    (∃ b op, i = .bit b ∧ s.busy = true ∧ s.op = opCode op ∧
      t = (pushBit op b s).2.respond (pushBit op b s).1 false) ∨
    (∃ op, i = .endCmd ∧ s.busy = true ∧ s.op = opCode op ∧
      t = (flushUnits op s).2.closeTransaction.respond (flushUnits op s).1 true) := by
  have hstart : ∀ op, exec (Op.start op) s = .next t →
      ((∃ o, Op.start op = Op.start o) ∧ s.busy = true ∧ t = s.raise .sequenceError) ∨
      (s.busy = false ∧ t = (s.openTransaction (opCode op) s.keyIn).respond [] false) := by
    intro op h
    rw [exec_start, startCommon, startAccepted_eq, keyOperand] at h
    cases hb : s.busy <;> simp [hb] at h
    · exact .inr ⟨rfl, h.symm⟩
    · exact .inl ⟨⟨op, rfl⟩, rfl, h.symm⟩
  have hs : ∀ op, i = Op.start op → _ := fun op hi => hstart op (hi ▸ h)
  have hop : (∃ op, i = Op.start op) ∨ i = .nop ∨ (∃ b, i = .bit b) ∨ i = .endCmd := by
    cases i
    · simp
    · exact .inl ⟨.ssubf, rfl⟩
    · exact .inl ⟨.ssubi, rfl⟩
    · exact .inl ⟨.pmix, rfl⟩
    · exact .inl ⟨.enc, rfl⟩
    · exact .inl ⟨.dec, rfl⟩
    · simp
    · simp
  rcases hop with ⟨op, rfl⟩ | rfl | ⟨b, rfl⟩ | rfl
  · rcases hs op rfl with ⟨ho, hb, ht⟩ | ⟨hb, ht⟩
    · exact .inr (.inl ⟨.inl ⟨⟨op, rfl⟩, hb⟩, ht⟩)
    · exact .inr (.inr (.inl ⟨op, rfl, hb, ht⟩))
  · exact .inl ⟨rfl, by simpa [exec, execNop] using h.symm⟩
  · simp only [exec, execBit, dataAccepted_eq] at h
    cases hb : s.busy <;> simp only [hb, if_true, if_false, Bool.false_eq_true] at h
    · exact .inr (.inl ⟨.inr ⟨.inl ⟨b, rfl⟩, rfl⟩, by simpa using h.symm⟩)
    · cases ho : opOfCode s.op with
      | none => simp [ho] at h
      | some op =>
        exact .inr (.inr (.inr (.inl ⟨b, op, rfl, rfl, opCode_of_opOfCode ho, by simpa [ho] using h.symm⟩)))
  · simp only [exec, execEndCmd, dataAccepted_eq] at h
    cases hb : s.busy <;> simp only [hb, if_true, if_false, Bool.false_eq_true] at h
    · exact .inr (.inl ⟨.inr ⟨.inr rfl, rfl⟩, by simpa using h.symm⟩)
    · cases ho : opOfCode s.op with
      | none => simp [ho] at h
      | some op =>
        exact .inr (.inr (.inr (.inr ⟨op, rfl, rfl, opCode_of_opOfCode ho, by simpa [ho] using h.symm⟩)))

theorem runCommand_of_ok {cw : CommandWord} {i : Instr} (h : decode cw = .ok i) (s : State) :
    runCommand cw s = exec i s := by
  rw [runCommand, h]

theorem runCommand_of_error {cw : CommandWord} {e : IllegalWord} (h : decode cw = .error e) (s : State) :
    runCommand cw s = .next (s.raise .illegalCommand) := by
  rw [runCommand, h]

/-- The four things a step can do: a reset, no command, an illegal word, or a command (R135, R176). -/
theorem step_cases (s : State) :
    (s.hostCycle.rst = true ∧ step s = .next s.dropCycle.resetRegisters) ∨
    (s.hostCycle.rst = false ∧ s.hostCycle.cmdValid = false ∧ step s = .next s.dropCycle.noResponse) ∨
    (s.hostCycle.rst = false ∧ s.hostCycle.cmdValid = true ∧ ∃ e, decode s.hostCycle.cw = .error e ∧
      step s = .next (s.atCommand.raise .illegalCommand)) ∨
    (s.hostCycle.rst = false ∧ s.hostCycle.cmdValid = true ∧ ∃ i, decode s.hostCycle.cw = .ok i ∧
      step s = exec i s.atCommand) := by
  cases hr : s.hostCycle.rst
  · cases hv : s.hostCycle.cmdValid
    · exact .inr (.inl ⟨rfl, rfl, by simp [step, runCycle, hr, hv]⟩)
    · cases hd : decode s.hostCycle.cw with
      | error e =>
        exact .inr (.inr (.inl ⟨rfl, rfl, e, rfl, by
          simp [step, runCycle, hr, hv, runCommand_of_error hd, State.atCommand]⟩))
      | ok i =>
        exact .inr (.inr (.inr ⟨rfl, rfl, i, rfl, by
          simp [step, runCycle, hr, hv, runCommand_of_ok hd, State.atCommand]⟩))
  · exact .inl ⟨rfl, by simp [step, runCycle, hr]⟩

theorem runFor_succ (n : Nat) {s t : State} (h : step s = .next t) : runFor (n + 1) s = runFor n t := by
  rw [runFor, h]

theorem core_run_next (M : Host.Core) (n : Nat) {s t : M.State} (h : M.step s = .next t) :
    M.run (n + 1) s = M.run n t := by
  rw [Host.Core.run, h]

theorem core_run_fault (M : Host.Core) (n : Nat) {s : M.State} {r : M.Fault} (h : M.step s = .fault r) :
    M.run (n + 1) s = .fault r := by
  rw [Host.Core.run, h]

theorem core_run_refused (M : Host.Core) (n : Nat) {s : M.State} {r : M.Refusal} (h : M.step s = .refused r) :
    M.run (n + 1) s = .refused r := by
  rw [Host.Core.run, h]

/-- `runFor` is the run of the host's interface. -/
theorem runFor_eq_core_run (n : Nat) (s : State) : runFor n s = Host.Core.run Sys2Proof.core n s := by
  induction n generalizing s with
  | zero => rfl
  | succ n ih =>
    cases h : step s with
    | next t => exact (runFor_succ n h).trans ((ih t).trans (core_run_next Sys2Proof.core n h).symm)
    | fault r => exact (by rw [runFor, h] : runFor (n + 1) s = .fault r).trans (core_run_fault Sys2Proof.core n h).symm
    | refused r =>
      exact (by rw [runFor, h] : runFor (n + 1) s = .refused r).trans (core_run_refused Sys2Proof.core n h).symm

end Sys2Proof.Machine
end

