-- ==== Sys2Proof/Laws/PerInstr.lean ====
section
/-! SUPPORT. The family EncodedWord, said per command: the word of a command is legal, it selects its row, and the
decoder reads the command back from it, whatever stands in the bits the decoder ignores (spec 30_encoding.md R62,
R67). -/

namespace Sys2Proof.Laws.EncodedWord

/-- What the family says of a command. -/
def Statement (i : Instr) : Prop :=
  i.wf = true ∧ legalWord (encode i) = true ∧ encode i &&& significantBits i = encode i ∧ decode (encode i) = .ok i

theorem nop : Statement .nop := by unfold Statement; decide

theorem startSsubf : Statement .startSsubf := by unfold Statement; decide

theorem startSsubi : Statement .startSsubi := by unfold Statement; decide

theorem startPmix : Statement .startPmix := by unfold Statement; decide

theorem startEnc : Statement .startEnc := by unfold Statement; decide

theorem startDec : Statement .startDec := by unfold Statement; decide

theorem bit (b : Bit) : Statement (.bit b) := by unfold Statement; cases b <;> decide

theorem endCmd : Statement .endCmd := by unfold Statement; decide

end Sys2Proof.Laws.EncodedWord
end

