-- ==== Sys2Proof/Tests/Slice0.lean ====
section
/-! SUPPORT. Small tests, each from an encoding or a vector of the spec (95_test_vectors.md), and a named witness for
the hypotheses of each statement. -/

namespace Sys2Proof.Tests

open Sys2Proof Sys2Proof.Machine

/-- The reset state with the tables `TBL_EX` of 95_test_vectors.md section 2. -/
def exState : State := { State.reset with rom := tblEx }

/-- A state with a transaction open, `key mod 256` = `0xE6`, bits waiting as given. -/
def openState (op : BitVec 3) (g h : Bits) : State :=
  { exState with op := op, key := 998#128, busy := true,
                 sacc := BitVec.ofNat 4 (b2n g), scnt := BitVec.ofNat 2 g.length,
                 pacc := BitVec.ofNat 8 (b2n h), pcnt := BitVec.ofNat 3 h.length }

/-- A state whose host presents a word next. -/
def presenting (cw : CommandWord) (key : KeyWord) (s : State) : State := s.present (Cycle.command cw key)

/-- The next state, if there is one. -/
def nextOf (o : Host.Outcome State Fault Refusal) : Option State :=
  match o with
  | .next t => some t
  | .fault _ => none
  | .refused _ => none

/-- A sequence from its digits. -/
def digits (ns : List Nat) : Bits := ns.map fun n => n = 1

/-- What the response port shows after a step. -/
def answer (o : Host.Outcome State Fault Refusal) : Option Response := (nextOf o).map State.resp

theorem next_of_some {o : Host.Outcome State Fault Refusal} (h : (nextOf o).isSome) : ∃ t, o = .next t := by
  cases o with
  | next t => exact ⟨t, rfl⟩
  | fault r => exact absurd h (by simp [nextOf])
  | refused r => exact absurd h (by simp [nextOf])

/-! ### Decoding: words written out from R62, and the vectors of 95 section 3.5 -/

theorem test_decode_nop : decode 0b00010101#8 = .ok .nop := by decide
theorem test_decode_start_ssubf : decode 0b01000000#8 = .ok .startSsubf := by decide
theorem test_decode_start_ssubi : decode 0b01000001#8 = .ok .startSsubi := by decide
theorem test_decode_start_pmix : decode 0b01000010#8 = .ok .startPmix := by decide
theorem test_decode_start_enc : decode 0b01000100#8 = .ok .startEnc := by decide
theorem test_decode_start_dec : decode 0b01000101#8 = .ok .startDec := by decide
theorem test_decode_bit_0 : decode 0b10000000#8 = .ok (.bit false) := by decide
theorem test_decode_bit_1 : decode 0b10000001#8 = .ok (.bit true) := by decide
theorem test_decode_end : decode 0b11000000#8 = .ok .endCmd := by decide
theorem test_decode_table_word_bit_1 : decodeTableWord 8 0x81 = some (.bit true) := by decide
theorem test_decode_illegal_starts :
    decode 0x43#8 = .error .startReservedOp ∧ decode 0x46#8 = .error .startReservedOp ∧
    decode 0x47#8 = .error .startReservedOp ∧ decode 0x48#8 = .error .startReservedBits ∧
    decode 0x60#8 = .error .startReservedBits ∧ decode 0x7F#8 = .error .startReservedBits := by decide
theorem test_decode_illegal_bits :
    decode 0x82#8 = .error .bitReservedBits ∧ decode 0x83#8 = .error .bitReservedBits ∧
    decode 0xBF#8 = .error .bitReservedBits := by decide
theorem test_decode_illegal_ends :
    decode 0xC1#8 = .error .endReservedBits ∧ decode 0xE0#8 = .error .endReservedBits ∧
    decode 0xFF#8 = .error .endReservedBits := by decide

/-! ### Well-formedness: what each check refuses. Every term of `Instr` is well formed by its type (R12). -/

theorem smoke_legalWord_refuses_reserved_op : legalWord 0x43#8 = false := by decide
theorem smoke_legalWord_refuses_reserved_bits : legalWord 0x82#8 = false := by decide
/-- The table pair of 95 section 2 that fails `TablesInverse`. -/
theorem smoke_tablesInverse_refuses : ¬ TablesInverse { enc := tblEx.enc, dec := tblId.dec } := by decide
theorem smoke_stream_refuses_bit_while_idle : wellFormedStream [(HostCommand.bit true).cycle] = false := by decide
theorem smoke_stream_refuses_open_end : wellFormedStream [(HostCommand.start .pmix 1#128).cycle] = false := by decide
theorem smoke_stream_refuses_illegal_word : wellFormedStream [Cycle.command 0x43#8 0#128] = false := by decide
theorem smoke_stream_refuses_reset : wellFormedStream [Cycle.reset] = false := by decide
theorem smoke_instr_wf : (Instr.bit true).wf = true := by decide

/-! ### Conversions, tables and stages (95 sections 2, 3.1 to 3.4) -/

theorem test_b2n : b2n (digits [0, 1, 0, 0, 1, 0, 0, 0]) = 72 := by decide
theorem test_n2b_drops_high_bits : n2b 0xE3 3 = digits [0, 1, 1] := by decide
/-- The sixteen entries of `TBL_EX`, flat, as 95 section 2 lists them. -/
theorem test_tblEx_entries :
    ((List.range 16).map fun a => (romRead tblEx.enc (BitVec.ofNat 4 a)).toNat) =
      [3, 8, 13, 2, 7, 12, 1, 6, 11, 0, 5, 10, 15, 4, 9, 14] ∧
    ((List.range 16).map fun a => (romRead tblEx.dec (BitVec.ofNat 4 a)).toNat) =
      [9, 6, 3, 0, 13, 10, 7, 4, 1, 14, 11, 8, 5, 2, 15, 12] := by decide
theorem test_tblEx_by_row_and_column : (tblEx.enc.get 2).get 1 = 0#4 ∧ (tblEx.enc.get 1).get 2 = 1#4 := by decide
theorem test_s_stage_drops_fifth_bit : applySBlock (digits [0, 1, 0, 0, 1]) tblEx.enc = digits [0, 1, 1, 1] := by decide
theorem test_p_stage_short_group :
    applyPBlock (digits [0, 1, 0, 0, 1, 0, 0, 0, 1, 1, 0]) 998 = digits [1, 0, 1, 0, 1, 1, 1, 0, 0, 0, 0] := by decide
theorem test_encode_12_bits : spnEncode tblEx (digits [0, 1, 0, 0, 1, 0, 0, 0, 1, 0, 1, 1]) 998 =
    digits [1, 0, 0, 1, 1, 1, 0, 1, 1, 1, 0, 0] := by decide
theorem test_decode_7_bits : spnDecode tblEx (digits [1, 0, 1, 0, 1, 1, 0]) 998 = digits [0, 1, 1, 1] := by decide

/-! ### Single steps (95 section 4) -/

/-- Program 5, step 2: START.ENC with key 7. -/
theorem test_start_enc_loads : (nextOf (step (presenting 0x44#8 7#128 exState))).map
    (fun t => (t.op, t.key, t.busy, t.seqerr)) = some (0b100#3, 7#128, true, false) := by decide
theorem test_start_ssubf_clears : (nextOf (exec .startSsubf { openState 0b101#3 [true] [true] with busy := false })).map
    (fun t => (t.op, t.scnt, t.pcnt)) = some (0b000#3, 0#2, 0#3) := by decide
theorem test_start_ssubi_op : (nextOf (exec .startSsubi exState)).map State.op = some 0b001#3 := by decide
theorem test_start_pmix_op : (nextOf (exec .startPmix exState)).map State.op = some 0b010#3 := by decide
theorem test_start_dec_op : (nextOf (exec .startDec exState)).map State.op = some 0b101#3 := by decide
/-- Program 5, step 4: a START while busy leaves OP and KEY alone. -/
theorem test_start_while_busy : (nextOf (exec .startPmix (openState 0b100#3 [] []))).map
    (fun t => (t.op, t.key, t.busy, t.seqerr, t.illop)) = some (0b100#3, 998#128, true, true, false) := by decide
/-- Program 1, step 5: the fourth bit of `0100` emits `0111`. -/
theorem test_bit_ssubf : answer (exec (.bit false) (openState 0b000#3 (digits [0, 1, 0]) [])) =
    some { bits := digits [0, 1, 1, 1], done := false } := by decide
/-- Program 1, step 15: the fourth bit of `0111` under SSUBI emits `0100`. -/
theorem test_bit_ssubi : answer (exec (.bit true) (openState 0b001#3 (digits [0, 1, 1]) [])) =
    some { bits := digits [0, 1, 0, 0], done := false } := by decide
/-- Program 2, step 10. -/
theorem test_bit_pmix : answer (exec (.bit false) (openState 0b010#3 [] (digits [0, 1, 0, 0, 1, 0, 0]))) =
    some { bits := digits [1, 0, 1, 0, 1, 1, 1, 0], done := false } := by decide
/-- Program 4, step 9. -/
theorem test_bit_enc : answer (exec (.bit false) (openState 0b100#3 (digits [1, 0, 0]) (digits [0, 1, 1, 1]))) =
    some { bits := digits [1, 0, 0, 1, 1, 1, 0, 1], done := false } := by decide
/-- Program 4, step 25: `10011101` under DEC emits `01001000`. -/
theorem test_bit_dec : answer (exec (.bit true) (openState 0b101#3 [] (digits [1, 0, 0, 1, 1, 1, 0]))) =
    some { bits := digits [0, 1, 0, 0, 1, 0, 0, 0], done := false } := by decide
/-- R144's example: END of PMIX with `101` waiting answers `011`. -/
theorem test_end_pmix : answer (exec .endCmd (openState 0b010#3 [] (digits [1, 0, 1]))) =
    some { bits := digits [0, 1, 1], done := true } := by decide
/-- Program 4, steps 16 and 30. -/
theorem test_end_enc : answer (exec .endCmd (openState 0b100#3 (digits [0, 1]) (digits [1, 0, 1, 0]))) =
    some { bits := digits [1, 1, 0, 0], done := true } := by decide
theorem test_end_dec : answer (exec .endCmd (openState 0b101#3 [] (digits [1, 1, 0, 0]))) =
    some { bits := digits [1, 0, 1, 1], done := true } := by decide
theorem test_nop_keeps_the_group : (nextOf (exec .nop (openState 0b010#3 [] (digits [0, 1])))).map
    (fun t => (t.pacc, t.pcnt)) = some (0b01#8, 2#3) := by decide
/-- Program 5, step 5: an illegal BIT pushes nothing and sets ILLOP. -/
theorem test_illegal_bit : (nextOf (step (presenting 0x82#8 0#128 (openState 0b100#3 [] [])))).map
    (fun t => (t.illop, t.seqerr, t.scnt)) = some (true, false, 0#2) := by decide
theorem test_reset_over_command : (nextOf (step ((openState 0b010#3 [] [true]).present
    { rst := true, cmdValid := true, cw := 0x81#8, keyIn := 0#128 }))).map (fun t => (t.busy, t.pcnt, t.seqerr)) =
    some (false, 0#3, false) := by decide
/-- The vectors of 95 section 3.7. -/
theorem test_out_pins : ({ exState with resp := { bits := digits [0, 1, 1], done := true } } : State).outPins =
    { outValid := true, outBits := 0x60#8, outCnt := 3#4, outDone := true, status := 0b000#3 } := by decide
theorem test_status_port : statusPort { exState with illop := true, seqerr := true } = 0b110#3 := by decide
theorem test_fetch_word_runs_first : (nextOf (step (State.reset.withFetchWord 8 0x44))).map
    (fun t => (t.op, t.busy)) = some (0b100#3, true) := by decide
/-- An interleaving of two instances: the second steps twice, the first once. -/
theorem test_instances : (match runSchedule [1, 0, 1] [presenting 0x42#8 1#128 exState, presenting 0x44#8 2#128 exState] with
    | .next cores => cores.map fun t => (t.op, t.key)
    | .fault _ => []
    | .refused _ => []) = [(0b010#3, 1#128), (0b100#3, 2#128)] := by decide

/-! ### The textual syntax and the codec (R71, R72; 95 section 3.8) -/

theorem test_asm_start_hex : parseLine ['s', 't', 'a', 'r', 't', '.', 'e', 'n', 'c', ' ', '0', 'x', 'F', 'f', ';', 'k'] =
    .ok (.command (.start .enc 255#128)) := by decide
theorem test_asm_bits_spaces : parseLine ['B', 'I', 'T', 'S', ' ', '1', ' ', '0', '1'] =
    .ok (.bits (digits [1, 0, 1])) := by decide
theorem test_asm_xact_pmix : (parseLine ['X', 'A', 'C', 'T', ' ', 'P', 'M', 'I', 'X', ' ', '9', '9', '8', ' ', '1', '0']).map
    AsmLine.expand = .ok [.start .pmix 998#128, .bit true, .bit false, .finish] := by decide
theorem smoke_asm_refuses_missing_key : parseLine ['S', 'T', 'A', 'R', 'T', '.', 'E', 'N', 'C'] = .error .badOperand := by
  decide
theorem smoke_asm_refuses_bit_2 : parseLine ['B', 'I', 'T', ' ', '2'] = .error .badOperand := by decide
theorem smoke_asm_refuses_wide_key :
    asmKey ('0' :: 'X' :: '1' :: List.replicate 32 '0') = none := by decide
theorem test_text_to_bits : textToBits ['H'] = digits [0, 1, 0, 0, 1, 0, 0, 0] := by decide
theorem test_text_truncates : textToBits [Char.ofNat 0x141] = digits [0, 1, 0, 0, 0, 0, 0, 1] := by decide
theorem test_bits_to_text : bitsToText (fun _ => true) (digits [0, 1, 0, 0, 1, 0, 0, 0, 0, 1, 1, 0]) = .ok ['H'] := by
  decide
theorem smoke_codec_refuses_invalid : bitsToText (fun n => n ≠ 72) (digits [0, 1, 0, 0, 1, 0, 0, 0]) =
    .error .invalidCodePoint := by decide
theorem test_display : bitsToDisplayString (digits [0, 1, 0, 0, 1, 0, 0, 0, 0, 1]) =
    ['0', '1', '0', '0', '1', '0', '0', '0', ' ', '0', '1'] := by decide

/-! ### Witnesses: a state and operands that meet the hypotheses of each statement, at the boundaries of its clauses -/

theorem tblEx_inverse : TablesInverse tblEx := by decide

theorem exState_inv : Inv exState := by constructor <;> decide

theorem openState_inv_ssubf : Inv (openState 0b000#3 (digits [1, 1, 1]) []) := by constructor <;> decide
theorem openState_inv_ssubi : Inv (openState 0b001#3 [] []) := by constructor <;> decide
theorem openState_inv_pmix : Inv (openState 0b010#3 [] (digits [1, 1, 1, 1, 1, 1, 1])) := by constructor <;> decide
theorem openState_inv_enc : Inv (openState 0b100#3 (digits [1, 1, 1]) (digits [1, 1, 1, 1])) := by constructor <;> decide
theorem openState_inv_dec : Inv (openState 0b101#3 [] (digits [1, 1, 1, 1, 1, 1, 1])) := by constructor <;> decide

theorem witness_XactPresentsItsTransaction : ∀ c ∈ [Cycle.idle], c.rst = false ∧ c.cmdValid = false := by decide

theorem witness_StepRunsTheDecodedCommand :
    (presenting 0x81#8 5#128 exState).presents 0x81#8 ∧ decode 0x81#8 = .ok (.bit true) :=
  ⟨⟨rfl, rfl, rfl⟩, by decide⟩

theorem witness_CycleWithoutCommandChangesNothing :
    exState.hostCycle.rst = false ∧ exState.hostCycle.cmdValid = false := by decide

theorem witness_ResetClearsEveryRegister :
    (({ exState with illop := true }.present Cycle.reset).hostCycle.rst = true) ∧
    ∃ t, step ({ exState with illop := true }.present Cycle.reset) = .next t ∧ t.illop = false :=
  ⟨rfl, _, rfl, rfl⟩

theorem witness_AcceptedStartOpensATransaction : exState.busy = false := rfl

theorem witness_OutOfSequenceCommandSetsSeqerrOnly :
    ((∃ op, Instr.startPmix = Op.start op) ∧ (openState 0b000#3 [] []).busy = true) ∧
    ((∃ b, Instr.bit true = .bit b) ∧ exState.busy = false) ∧ (Instr.endCmd = .endCmd ∧ exState.busy = false) ∧
    (∃ t, step { exState with seqerr := true } = .next t) ∧ exState.hostCycle.rst = false ∧
    ∃ t, exec .nop exState = .next t :=
  ⟨⟨⟨.pmix, rfl⟩, rfl⟩, ⟨⟨true, rfl⟩, rfl⟩, ⟨rfl, rfl⟩, ⟨_, rfl⟩, rfl, ⟨_, rfl⟩⟩

theorem witness_IllegalWordSetsIllopOnly :
    ((presenting 0xC1#8 0#128 exState).presents 0xC1#8 ∧ decode 0xC1#8 = .error .endReservedBits) ∧
    (∃ t, step { exState with illop := true } = .next t) ∧ exState.hostCycle.rst = false :=
  ⟨⟨⟨rfl, rfl, rfl⟩, by decide⟩, ⟨_, rfl⟩, rfl⟩

theorem witness_NopChangesNoRegister : kindField 0x00#8 = 0b00#2 ∧ kindField 0x3F#8 = 0b00#2 := by decide

theorem witness_EachFlagRisesExactlyOnItsFault :
    (∃ t, step (exState.present Cycle.reset) = .next t) ∧ (exState.present Cycle.reset).hostCycle.rst = true ∧
    (∃ t, step exState = .next t) ∧ exState.hostCycle.rst = false :=
  ⟨⟨_, rfl⟩, rfl, ⟨_, rfl⟩, rfl⟩

theorem witness_FaultedStateIsNeverFinalBeforeReset :
    (∀ c ∈ ([] : List Cycle).take 2, c.rst = false) ∧ (∃ t, runFor 2 { exState with illop := true } = .next t) ∧
    ({ exState with illop := true } : State).faulted = true :=
  ⟨by decide, ⟨_, rfl⟩, rfl⟩

theorem witness_BitUnderSsubFeedsTheSUnit :
    (openState 0b000#3 (digits [1, 0, 1]) []).busy = true ∧
    SWaiting (digits [1, 0, 1]) (openState 0b000#3 (digits [1, 0, 1]) []) ∧ SWaiting [] (openState 0b001#3 [] []) :=
  ⟨rfl, ⟨by decide, by decide⟩, ⟨by decide, by decide⟩⟩

theorem witness_BitUnderPmixFeedsThePUnit :
    (openState 0b010#3 [] (digits [1, 1, 1, 1, 1, 1, 1])).busy = true ∧
    (openState 0b010#3 [] (digits [1, 1, 1, 1, 1, 1, 1])).op = 0b010#3 ∧
    PWaiting (digits [1, 1, 1, 1, 1, 1, 1]) (openState 0b010#3 [] (digits [1, 1, 1, 1, 1, 1, 1])) ∧
    PWaiting [] (openState 0b010#3 [] []) :=
  ⟨rfl, rfl, ⟨by decide, by decide⟩, ⟨by decide, by decide⟩⟩

theorem witness_BitUnderEncFeedsSThenP :
    SWaiting (digits [1, 1, 1]) (openState 0b100#3 (digits [1, 1, 1]) (digits [1, 1, 1, 1])) ∧
    PWaiting (digits [1, 1, 1, 1]) (openState 0b100#3 (digits [1, 1, 1]) (digits [1, 1, 1, 1])) ∧
    (openState 0b100#3 (digits [1, 1, 1]) (digits [1, 1, 1, 1])).busy = true ∧
    (openState 0b100#3 (digits [1, 1, 1]) (digits [1, 1, 1, 1])).op = 0b100#3 :=
  ⟨⟨by decide, by decide⟩, ⟨by decide, by decide⟩, rfl, rfl⟩

theorem witness_BitUnderDecFeedsPThenS :
    SWaiting [] (openState 0b101#3 [] (digits [1, 1, 1, 1, 1, 1, 1])) ∧
    PWaiting (digits [1, 1, 1, 1, 1, 1, 1]) (openState 0b101#3 [] (digits [1, 1, 1, 1, 1, 1, 1])) ∧
    (openState 0b101#3 [] (digits [1, 1, 1, 1, 1, 1, 1])).busy = true ∧
    (openState 0b101#3 [] (digits [1, 1, 1, 1, 1, 1, 1])).op = 0b101#3 :=
  ⟨⟨by decide, by decide⟩, ⟨by decide, by decide⟩, rfl, rfl⟩

theorem witness_EndFlushesTheUnits :
    (openState 0b101#3 [] (digits [1, 1, 1, 1, 1, 1, 1])).busy = true ∧
    (openState 0b101#3 [] (digits [1, 1, 1, 1, 1, 1, 1])).op = opCode .dec ∧
    SWaiting [] (openState 0b101#3 [] (digits [1, 1, 1, 1, 1, 1, 1])) ∧
    PWaiting (digits [1, 1, 1, 1, 1, 1, 1]) (openState 0b101#3 [] (digits [1, 1, 1, 1, 1, 1, 1])) :=
  ⟨rfl, rfl, ⟨by decide, by decide⟩, ⟨by decide, by decide⟩⟩

theorem witness_BitAndEndCompleteWhileBusy :
    ((∃ b, Instr.bit false = .bit b) ∧ (openState 0b000#3 [] []).busy = true ∧
      ∃ op, (openState 0b000#3 [] []).op = opCode op) ∧
    (openState 0b011#3 [] []).op = 0b011#3 ∧ (openState 0b110#3 [] []).op = 0b110#3 ∧
    (openState 0b111#3 [] []).op = 0b111#3 :=
  ⟨⟨⟨false, rfl⟩, rfl, .ssubf, rfl⟩, rfl, rfl, rfl⟩

theorem witness_CommandsLeaveTheRestAlone :
    (∃ t, exec .startEnc exState = .next t ∧ t.op ≠ exState.op ∧ t.busy ≠ exState.busy) :=
  ⟨_, rfl, by decide, by decide⟩

theorem witness_NoStepEmitsMoreThanEightBits :
    (∃ t, step exState = .next t) ∧ Inv (openState 0b100#3 (digits [1, 1, 1]) (digits [1, 1, 1, 1])) ∧
    ∃ t, exec .endCmd (openState 0b100#3 (digits [1, 1, 1]) (digits [1, 1, 1, 1])) = .next t :=
  ⟨⟨_, rfl⟩, openState_inv_enc, ⟨_, rfl⟩⟩

theorem witness_OutPinsShowTheResponse :
    exState.resp.bits.length ≤ 8 ∧
    ({ exState with resp := { bits := digits [1, 0, 1, 0, 1, 1, 1, 0], done := false } } : State).resp.bits.length ≤ 8 := by
  decide

theorem witness_EveryStepKeepsTheInvariant : Inv (openState 0b010#3 [] (digits [1, 1, 1, 1, 1, 1, 1])) ∧
    ∃ t, step (openState 0b010#3 [] (digits [1, 1, 1, 1, 1, 1, 1])) = .next t :=
  ⟨openState_inv_pmix, ⟨_, rfl⟩⟩

theorem witness_NoStepStopsUnderTheInvariant : Inv exState := exState_inv

theorem witness_BusyChangesOnlyByStartEndAndReset :
    (∃ t, step (presenting 0x44#8 7#128 exState) = .next t ∧ t.busy = true) ∧
    (∃ t, step (presenting 0xC0#8 0#128 (openState 0b000#3 [] [])) = .next t ∧ t.busy = false) ∧
    (∃ t, step ((openState 0b000#3 [] []).present Cycle.reset) = .next t ∧ t.busy = false) :=
  ⟨⟨_, rfl, rfl⟩, ⟨_, rfl, rfl⟩, ⟨_, rfl, rfl⟩⟩

theorem witness_OpAndKeyAreWrittenOnlyByStartAndReset :
    ∃ t, step (presenting 0x44#8 7#128 exState) = .next t ∧ t.op ≠ exState.op ∧ t.key ≠ exState.key :=
  ⟨_, rfl, by decide, by decide⟩

theorem witness_TablesAreReadOnly : ∃ t, runFor 2 (exState.present Cycle.reset) = .next t := ⟨_, rfl⟩

theorem witness_DeadKeyBitsCannotBeObserved :
    ({ exState with key := 0x1FF#128 } : State).forgetDeadKey = ({ exState with key := 0xFF#128 } : State).forgetDeadKey ∧
    ∃ t, runFor 1 { exState with key := 0x1FF#128 } = .next t :=
  ⟨by rfl, ⟨_, rfl⟩⟩

theorem witness_IdleOpAndKeyCannotBeObserved :
    exState.busy = false ∧ ({ exState with op := 0b101#3, key := 1#128 } : State).forgetOpKey = exState.forgetOpKey ∧
    ∃ t, runFor 1 exState = .next t :=
  ⟨rfl, rfl, ⟨_, rfl⟩⟩

theorem witness_InstancesRunIndependently : ∃ cores, runSchedule [0, 1, 0] [exState, exState] = .next cores ∧
    ([exState, exState] : List State)[1]? = some exState :=
  ⟨_, rfl, rfl⟩

/-- A transaction on the port, with a cycle without a command and a NOP inside. -/
def gappedCycles : List Cycle :=
  [(HostCommand.start .pmix 998#128).cycle, Cycle.idle, (HostCommand.bit true).cycle, HostCommand.nop.cycle,
   HostCommand.finish.cycle]

theorem witness_TransactionComputesItsFunction :
    exState.busy = false ∧
    commandsOf gappedCycles = some [.start .pmix 998#128, .bit true, .nop, .finish] ∧
    withoutNops [.start .pmix 998#128, .bit true, .nop, .finish] =
      ({ op := .pmix, key := 998#128, bits := [true] } : Transaction).commands := by decide

theorem witness_StreamComputesEachTransaction :
    exState.busy = false ∧
    commandsOf (gappedCycles ++ gappedCycles) =
      some [.start .pmix 998#128, .bit true, .nop, .finish, .start .pmix 998#128, .bit true, .nop, .finish] ∧
    withoutNops [.start .pmix 998#128, .bit true, .nop, .finish, .start .pmix 998#128, .bit true, .nop, .finish] =
      [({ op := .pmix, key := 998#128, bits := [true] } : Transaction),
       ({ op := .pmix, key := 998#128, bits := [true] } : Transaction)].flatMap Transaction.commands := by decide

theorem witness_WellFormedStreamsAreSequencesOfTransactions : wellFormedStream gappedCycles = true := by decide

theorem witness_ResetMidTransactionLeavesAPrefix :
    ({ exState with pending := ([.start .pmix 998#128, .bit true] : List HostCommand).map HostCommand.cycle ++
        [Cycle.reset] } : State).pending =
      (HostCommand.start .pmix 998#128 :: [true].map HostCommand.bit).map HostCommand.cycle ++ Cycle.reset :: [] ∧
    exState.busy = false := by decide

theorem witness_MachineRoundTrip :
    TablesInverse exState.rom ∧ exState.busy = false ∧ (998#128).extractLsb' 0 8 = (230#128).extractLsb' 0 8 :=
  ⟨tblEx_inverse, rfl, by decide⟩

theorem witness_InverseTablesAreTwoSided : TablesInverse tblEx := tblEx_inverse

theorem witness_GroupsAreIndependentLanes :
    (digits [0, 1, 0, 0]).length % 4 = 0 ∧ (digits [0, 1, 0, 0, 1, 0, 0, 0]).length % 8 = 0 := by decide

theorem witness_SStageInverse : TablesInverse tblId := by decide

theorem witness_MaskMeetsAGroupFromItsLowEnd :
    7 < (digits [0, 1, 0, 0, 1, 0, 0, 0]).length ∧ (digits [0, 1, 0, 0, 1, 0, 0, 0]).length ≤ 8 ∧
    0 < (digits [1]).length := by decide

theorem witness_PStageXorsAPad : (digits [0, 1, 1]).length = (digits [1, 1, 1]).length := by decide

theorem witness_ShapeOfDecode : (digits [1, 0, 1, 0, 1, 1, 0]).length < 8 ∧ (digits []).length < 8 := by decide

theorem witness_DecodeUndoesEncode : TablesInverse tblEx ∧ (digits [0, 1, 0, 0, 1, 0, 0, 0]).length % 8 = 0 :=
  ⟨tblEx_inverse, by decide⟩

theorem witness_EncodeUndoesDecodeWhenAligned : TablesInverse tblEx ∧ (digits [0, 1, 0, 0]).length % 4 = 0 :=
  ⟨tblEx_inverse, by decide⟩

theorem witness_WrongKeyExactly : TablesInverse tblEx := tblEx_inverse

theorem witness_GroupBoundaryHazard :
    (digits [0, 1, 0, 0, 1, 0, 0, 0, 1, 0, 1, 1]).length = 12 ∧ 4 ≤ (digits [0, 1, 0, 0]).length := by decide

theorem witness_TextRoundTrip :
    (∀ c ∈ ['H', 'i'], c.toNat < 256 ∧ (fun _ => true) c.toNat = true) ∧ (digits [1, 1, 1, 1, 1, 1, 1]).length < 8 := by
  refine ⟨fun c hc => ?_, by decide⟩
  rcases List.mem_pair.mp hc with rfl | rfl <;> decide

end Sys2Proof.Tests
end

/-! PROOFS. The statements on spec 00_scope.md: the conversion laws (R10), the two-sided table inverse (R15), and the
dead bits of a key (R13, R26). The last rests on one simulation: blanking those bits commutes with every operation of the
core, so with every step and every run. -/

namespace Sys2Proof.Machine

/-! ### The conversions and the tables -/

theorem n2b_xor (x y w : Nat) : n2b (x ^^^ y) w = xorBits (n2b x w) (n2b y w) := by
  simp [n2b, xorBits, List.zipWith_map]

/-- Settles O40: the three laws one by one. -/
theorem conversionsAreInverse : Obligations.ConversionsAreInverse :=
  ⟨n2b_b2n_length, b2n_n2b_mod, n2b_xor⟩

/-- Settles O41: a map of the sixteen nibbles to themselves with a left inverse is injective, so onto, and a left inverse
of a map that is onto is its right inverse. -/
theorem inverseTablesAreTwoSided : Obligations.InverseTablesAreTwoSided := by
  intro T (hleft : Function.LeftInverse (romRead T.dec) (romRead T.enc))
  have hbij : Function.Bijective (romRead T.enc) := Finite.injective_iff_bijective.mp hleft.injective
  exact ⟨hleft.rightInverse_of_surjective hbij.surjective, hbij⟩

/-! ### Functions of the state that commute with the step -/

/-- An outcome with its next state, if it has one, mapped by `f`; the stops stay. -/
def mapNext (f : State → State) : Host.Outcome State Fault Refusal → Host.Outcome State Fault Refusal
  | .next s => .next (f s)
  | .fault r => .fault r
  | .refused r => .refused r

@[simp] theorem mapNext_next (f : State → State) (s : State) : mapNext f (.next s) = .next (f s) := rfl
@[simp] theorem mapNext_fault (f : State → State) (r : Fault) : mapNext f (.fault r) = .fault r := rfl
@[simp] theorem mapNext_refused (f : State → State) (r : Refusal) : mapNext f (.refused r) = .refused r := rfl

theorem mapNext_eq_next_iff {f : State → State} {o : Host.Outcome State Fault Refusal} {u : State} :
    mapNext f o = .next u ↔ ∃ t, o = .next t ∧ f t = u := by
  cases o <;> simp

/-- A function of the state that commutes with the step commutes with every run. -/
theorem runFor_map {f : State → State} (hstep : ∀ s, step (f s) = mapNext f (step s)) (n : Nat) (s : State) :
    runFor n (f s) = mapNext f (runFor n s) := by
  induction n generalizing s with
  | zero => rfl
  | succ n ih =>
    rw [runFor, runFor, hstep]
    cases step s with
    | next t => exact ih t
    | fault r => rfl
    | refused r => rfl

/-! ### Blanking the dead key bits: what it leaves, and what it commutes with -/

@[simp] theorem liveKey_zero : liveKey 0#128 = 0#128 := by decide

@[simp] theorem extractLsb'_liveKey (k : KeyWord) : (liveKey k).extractLsb' 0 8 = k.extractLsb' 0 8 := by
  apply BitVec.eq_of_toNat_eq
  simp [liveKey]

@[simp] theorem maskOf_forgetDeadKey (s : State) : maskOf s.forgetDeadKey = maskOf s := extractLsb'_liveKey s.key

@[simp] theorem Cycle.forgetDeadKey_rst (c : Cycle) : c.forgetDeadKey.rst = c.rst := rfl
@[simp] theorem Cycle.forgetDeadKey_cmdValid (c : Cycle) : c.forgetDeadKey.cmdValid = c.cmdValid := rfl
@[simp] theorem Cycle.forgetDeadKey_cw (c : Cycle) : c.forgetDeadKey.cw = c.cw := rfl
@[simp] theorem Cycle.forgetDeadKey_keyIn (c : Cycle) : c.forgetDeadKey.keyIn = liveKey c.keyIn := rfl

@[simp] theorem forgetDeadKey_busy (s : State) : s.forgetDeadKey.busy = s.busy := rfl
@[simp] theorem forgetDeadKey_op (s : State) : s.forgetDeadKey.op = s.op := rfl
@[simp] theorem forgetDeadKey_rom (s : State) : s.forgetDeadKey.rom = s.rom := rfl
@[simp] theorem forgetDeadKey_keyIn (s : State) : s.forgetDeadKey.keyIn = liveKey s.keyIn := rfl
@[simp] theorem forgetDeadKey_sent (s : State) : s.forgetDeadKey.sent = s.sent := rfl
@[simp] theorem forgetDeadKey_outPins (s : State) : s.forgetDeadKey.outPins = s.outPins := rfl

theorem forgetDeadKey_respond (q : Bits) (done : Bool) (s : State) :
    s.forgetDeadKey.respond q done = (s.respond q done).forgetDeadKey := rfl

theorem forgetDeadKey_noResponse (s : State) : s.forgetDeadKey.noResponse = s.noResponse.forgetDeadKey := rfl

theorem forgetDeadKey_raise (f : HwFault) (s : State) : s.forgetDeadKey.raise f = (s.raise f).forgetDeadKey := by
  cases f <;> rfl

theorem forgetDeadKey_resetRegisters (s : State) :
    s.forgetDeadKey.resetRegisters = s.resetRegisters.forgetDeadKey := by
  simp [State.forgetDeadKey, State.resetRegisters, State.reset]

theorem forgetDeadKey_openTransaction (op : BitVec 3) (key : KeyWord) (s : State) :
    s.forgetDeadKey.openTransaction op (liveKey key) = (s.openTransaction op key).forgetDeadKey := rfl

theorem forgetDeadKey_closeTransaction (s : State) :
    s.forgetDeadKey.closeTransaction = s.closeTransaction.forgetDeadKey := rfl

theorem forgetDeadKey_sampleKey (key : KeyWord) (s : State) :
    s.forgetDeadKey.sampleKey (liveKey key) = (s.sampleKey key).forgetDeadKey := rfl

theorem forgetDeadKey_dropCycle (s : State) : s.forgetDeadKey.dropCycle = s.dropCycle.forgetDeadKey := by
  simp [State.forgetDeadKey, State.dropCycle]

theorem forgetDeadKey_hostCycle (s : State) : s.forgetDeadKey.hostCycle = s.hostCycle.forgetDeadKey := by
  have hidle : Cycle.idle = Cycle.idle.forgetDeadKey := by decide
  unfold State.hostCycle State.forgetDeadKey
  cases s.pending with
  | nil => exact hidle
  | cons c cs => rfl

/-! ### The units read no dead key bit: they emit the same bits -/

theorem sPush_forgetDeadKey (T : STable) (b : Bit) (s : State) :
    sPush T b s.forgetDeadKey = Prod.map id State.forgetDeadKey (sPush T b s) := by
  unfold sPush
  rw [apply_ite (Prod.map id State.forgetDeadKey)]
  rfl

theorem sFlush_forgetDeadKey (s : State) :
    sFlush s.forgetDeadKey = Prod.map id State.forgetDeadKey (sFlush s) := rfl

theorem pPush_forgetDeadKey (b : Bit) (s : State) :
    pPush b s.forgetDeadKey = Prod.map id State.forgetDeadKey (pPush b s) := by
  unfold pPush
  rw [maskOf_forgetDeadKey, apply_ite (Prod.map id State.forgetDeadKey)]
  rfl

theorem pFlush_forgetDeadKey (s : State) :
    pFlush s.forgetDeadKey = Prod.map id State.forgetDeadKey (pFlush s) := by
  unfold pFlush
  rw [maskOf_forgetDeadKey]
  rfl

theorem sFeed_forgetDeadKey (T : STable) (xs : Bits) (s : State) :
    sFeed T xs s.forgetDeadKey = Prod.map id State.forgetDeadKey (sFeed T xs s) := by
  induction xs generalizing s with
  | nil => rfl
  | cons x xs ih => simp [sFeed, sPush_forgetDeadKey, ih]

theorem pFeed_forgetDeadKey (xs : Bits) (s : State) :
    pFeed xs s.forgetDeadKey = Prod.map id State.forgetDeadKey (pFeed xs s) := by
  induction xs generalizing s with
  | nil => rfl
  | cons x xs ih => simp [pFeed, pPush_forgetDeadKey, ih]

theorem pushBit_forgetDeadKey (op : Op) (b : Bit) (s : State) :
    pushBit op b s.forgetDeadKey = Prod.map id State.forgetDeadKey (pushBit op b s) := by
  cases op with
  | ssubf => exact sPush_forgetDeadKey s.rom.enc b s
  | ssubi => exact sPush_forgetDeadKey s.rom.dec b s
  | pmix => exact pPush_forgetDeadKey b s
  | enc => simp [pushBit, sPush_forgetDeadKey, pFeed_forgetDeadKey]
  | dec => simp [pushBit, pPush_forgetDeadKey, sFeed_forgetDeadKey]

theorem flushUnits_forgetDeadKey (op : Op) (s : State) :
    flushUnits op s.forgetDeadKey = Prod.map id State.forgetDeadKey (flushUnits op s) := by
  cases op with
  | ssubf => exact sFlush_forgetDeadKey s
  | ssubi => exact sFlush_forgetDeadKey s
  | pmix => exact pFlush_forgetDeadKey s
  | enc => simp [flushUnits, sFlush_forgetDeadKey, pFlush_forgetDeadKey]
  | dec => simp [flushUnits, sFlush_forgetDeadKey, pFlush_forgetDeadKey, sFeed_forgetDeadKey]

/-! ### The commands and the step -/

/-- The one command that writes `KEY` latches a blanked operand where the other run latches the operand (R137). -/
theorem startCommon_forgetDeadKey (op : Op) (s : State) :
    startCommon op s.forgetDeadKey = mapNext State.forgetDeadKey (startCommon op s) := by
  cases hb : s.busy with
  | false =>
    simp [startCommon, startAccepted_eq, keyOperand, hb, forgetDeadKey_openTransaction, forgetDeadKey_respond]
  | true => simp [startCommon, startAccepted_eq, hb, forgetDeadKey_raise]

theorem execBit_forgetDeadKey (b : Bit) (s : State) :
    execBit b s.forgetDeadKey = mapNext State.forgetDeadKey (execBit b s) := by
  cases hb : s.busy with
  | false => simp [execBit, dataAccepted_eq, hb, forgetDeadKey_raise]
  | true =>
    cases ho : opOfCode s.op with
    | none => simp [execBit, dataAccepted_eq, hb, ho]
    | some op => simp [execBit, dataAccepted_eq, hb, ho, pushBit_forgetDeadKey, forgetDeadKey_respond]

theorem execEndCmd_forgetDeadKey (s : State) :
    execEndCmd s.forgetDeadKey = mapNext State.forgetDeadKey (execEndCmd s) := by
  cases hb : s.busy with
  | false => simp [execEndCmd, dataAccepted_eq, hb, forgetDeadKey_raise]
  | true =>
    cases ho : opOfCode s.op with
    | none => simp [execEndCmd, dataAccepted_eq, hb, ho]
    | some op =>
      simp [execEndCmd, dataAccepted_eq, hb, ho, flushUnits_forgetDeadKey, forgetDeadKey_closeTransaction,
        forgetDeadKey_respond]

theorem exec_forgetDeadKey (i : Instr) (s : State) :
    exec i s.forgetDeadKey = mapNext State.forgetDeadKey (exec i s) := by
  cases i with
  | nop => exact congrArg _ (forgetDeadKey_respond [] false s)
  | startSsubf => exact startCommon_forgetDeadKey .ssubf s
  | startSsubi => exact startCommon_forgetDeadKey .ssubi s
  | startPmix => exact startCommon_forgetDeadKey .pmix s
  | startEnc => exact startCommon_forgetDeadKey .enc s
  | startDec => exact startCommon_forgetDeadKey .dec s
  | bit b => exact execBit_forgetDeadKey b s
  | endCmd => exact execEndCmd_forgetDeadKey s

theorem runCommand_forgetDeadKey (cw : CommandWord) (s : State) :
    runCommand cw s.forgetDeadKey = mapNext State.forgetDeadKey (runCommand cw s) := by
  cases hd : decode cw with
  | ok i => rw [runCommand_of_ok hd, runCommand_of_ok hd, exec_forgetDeadKey]
  | error e => rw [runCommand_of_error hd, runCommand_of_error hd, forgetDeadKey_raise, mapNext_next]

theorem runCycle_forgetDeadKey (c : Cycle) (s : State) :
    runCycle c.forgetDeadKey s.forgetDeadKey = mapNext State.forgetDeadKey (runCycle c s) := by
  cases hrst : c.rst with
  | true => simp [runCycle, hrst, forgetDeadKey_resetRegisters]
  | false =>
    cases hvalid : c.cmdValid with
    | true => simp [runCycle, hrst, hvalid, forgetDeadKey_sampleKey, runCommand_forgetDeadKey]
    | false => simp [runCycle, hrst, hvalid, forgetDeadKey_noResponse]

theorem step_forgetDeadKey (s : State) : step s.forgetDeadKey = mapNext State.forgetDeadKey (step s) := by
  rw [step, forgetDeadKey_hostCycle, forgetDeadKey_dropCycle, runCycle_forgetDeadKey, step]

/-- Settles O32: both runs become, their dead key bits blanked, the one run from the common blanked state, and neither
the responses nor the pins are among what is blanked. -/
theorem deadKeyBitsCannotBeObserved : Obligations.DeadKeyBitsCannotBeObserved := by
  intro n s₁ s₂ t₁ hs hrun
  have hmap : mapNext State.forgetDeadKey (runFor n s₂) = .next t₁.forgetDeadKey := by
    rw [← runFor_map step_forgetDeadKey, ← hs, runFor_map step_forgetDeadKey, hrun, mapNext_next]
  obtain ⟨t₂, hrun₂, ht⟩ := mapNext_eq_next_iff.mp hmap
  have hsent : t₁.sent = t₂.sent := by simpa using congrArg State.sent ht.symm
  have hpins : t₁.outPins = t₂.outPins := by simpa using congrArg State.outPins ht.symm
  exact ⟨t₂, hrun₂, ht.symm, hsent, hpins⟩

end Sys2Proof.Machine

/-! PROOFS. The statements on spec 10_state.md: the reset values (R30), the status port (R27), who writes `OP` and `KEY`
(R25, R26), that an idle core does not show them (R31), and the state invariant (R32). -/

namespace Sys2Proof.Machine

/-! ### Shared facts about a step and a run -/

@[simp] theorem atCommand_op (s : State) : s.atCommand.op = s.op := rfl
@[simp] theorem atCommand_key (s : State) : s.atCommand.key = s.key := rfl
@[simp] theorem atCommand_busy (s : State) : s.atCommand.busy = s.busy := rfl
@[simp] theorem atCommand_keyIn (s : State) : s.atCommand.keyIn = s.hostCycle.keyIn := rfl

theorem step_of_reset {s : State} (hr : s.hostCycle.rst = true) : step s = .next s.dropCycle.resetRegisters := by
  simp [step, runCycle, hr]

theorem step_of_no_command {s : State} (hr : s.hostCycle.rst = false) (hv : s.hostCycle.cmdValid = false) :
    step s = .next s.dropCycle.noResponse := by
  simp [step, runCycle, hr, hv]

theorem step_of_illegal {s : State} {e : IllegalWord} (hr : s.hostCycle.rst = false)
    (hv : s.hostCycle.cmdValid = true) (hd : decode s.hostCycle.cw = .error e) :
    step s = .next (s.atCommand.raise .illegalCommand) := by
  simp [step, runCycle, hr, hv, runCommand_of_error hd, State.atCommand]

theorem step_of_legal {s : State} {i : Instr} (hr : s.hostCycle.rst = false) (hv : s.hostCycle.cmdValid = true)
    (hd : decode s.hostCycle.cw = .ok i) : step s = exec i s.atCommand := by
  simp [step, runCycle, hr, hv, runCommand_of_ok hd, State.atCommand]

/-- What the next state of a step is, in the four cases of the step (R135, R176). -/
theorem step_next_cases {s t : State} (h : step s = .next t) :
    (s.hostCycle.rst = true ∧ t = s.dropCycle.resetRegisters) ∨
    (s.hostCycle.rst = false ∧ s.hostCycle.cmdValid = false ∧ t = s.dropCycle.noResponse) ∨
    (s.hostCycle.rst = false ∧ s.hostCycle.cmdValid = true ∧ (∃ e, decode s.hostCycle.cw = .error e) ∧
      t = s.atCommand.raise .illegalCommand) ∨
    (s.hostCycle.rst = false ∧ s.hostCycle.cmdValid = true ∧ ∃ i, decode s.hostCycle.cw = .ok i ∧
      exec i s.atCommand = .next t) := by
  rcases step_cases s with ⟨hr, hs⟩ | ⟨hr, hv, hs⟩ | ⟨hr, hv, e, hd, hs⟩ | ⟨hr, hv, i, hd, hs⟩
  all_goals rw [hs] at h
  · exact .inl ⟨hr, (Host.Outcome.next.inj h).symm⟩
  · exact .inr (.inl ⟨hr, hv, (Host.Outcome.next.inj h).symm⟩)
  · exact .inr (.inr (.inl ⟨hr, hv, ⟨e, hd⟩, (Host.Outcome.next.inj h).symm⟩))
  · exact .inr (.inr (.inr ⟨hr, hv, i, hd, h⟩))

theorem exec_bit_of_idle {s : State} (hb : s.busy = false) (b : Bit) :
    exec (.bit b) s = .next (s.raise .sequenceError) := by
  simp [exec, execBit, dataAccepted_eq, hb]

theorem exec_endCmd_of_idle {s : State} (hb : s.busy = false) :
    exec .endCmd s = .next (s.raise .sequenceError) := by
  simp [exec, execEndCmd, dataAccepted_eq, hb]

theorem startCommon_of_idle {s : State} (hb : s.busy = false) (op : Op) :
    startCommon op s = .next ((s.openTransaction (opCode op) s.keyIn).respond [] false) := by
  simp [startCommon, startAccepted_eq, keyOperand, hb]

/-! ### The reset values and the status port -/

/-- Settles O9: the model's reset state, field by field (R30). -/
theorem resetStateHoldsTheResetValues : Obligations.ResetStateHoldsTheResetValues :=
  ⟨rfl, rfl, rfl, rfl, rfl, rfl, rfl, rfl, rfl, rfl, rfl⟩

theorem statusPort_getLsbD_zero (s : State) : (statusPort s).getLsbD 0 = s.busy := by
  rw [statusPort, BitVec.getLsbD_append, BitVec.getLsbD_append]
  simp

theorem statusPort_getLsbD_one (s : State) : (statusPort s).getLsbD 1 = s.illop := by
  rw [statusPort, BitVec.getLsbD_append, BitVec.getLsbD_append]
  simp

theorem statusPort_getLsbD_two (s : State) : (statusPort s).getLsbD 2 = s.seqerr := by
  rw [statusPort, BitVec.getLsbD_append]
  simp

/-- The status bit at a fault's code is up once the fault is raised (R170). -/
theorem statusPort_raise_code (f : HwFault) (s : State) : (statusPort (s.raise f)).getLsbD f.code = true := by
  cases f with
  | illegalCommand => exact statusPort_getLsbD_one (s.raise .illegalCommand)
  | sequenceError => exact statusPort_getLsbD_two (s.raise .sequenceError)

/-- Settles O15: the three status bits, then the bit at a fault's code. -/
theorem statusPortShowsTheFlags : Obligations.StatusPortShowsTheFlags := fun s =>
  ⟨statusPort_getLsbD_zero s, statusPort_getLsbD_one s, statusPort_getLsbD_two s, fun f => statusPort_raise_code f s⟩

/-! ### Who writes `OP` and `KEY` -/

/-- A command leaves `OP` and `KEY` alone, unless it is an accepted START (R137). -/
theorem exec_next_op_key {i : Instr} {s t : State} (h : exec i s = .next t) :
    (t.op = s.op ∧ t.key = s.key) ∨
    ∃ op, i = Op.start op ∧ s.busy = false ∧ t.op = opCode op ∧ t.key = s.keyIn := by
  rcases exec_next_cases h with ⟨-, rfl⟩ | ⟨-, rfl⟩ | ⟨op, rfl, hb, rfl⟩ | ⟨b, op, -, -, -, rfl⟩ | ⟨op, -, -, -, rfl⟩
  · exact .inl ⟨rfl, rfl⟩
  · exact .inl ⟨rfl, rfl⟩
  · exact .inr ⟨op, rfl, hb, rfl, rfl⟩
  · obtain ⟨a, c, p, n, hpush⟩ := pushBit_snd op b s
    exact .inl (by simp [hpush])
  · obtain ⟨a, c, p, n, hflush⟩ := flushUnits_snd op s
    exact .inl (by simp [hflush])

/-- Settles O30: of the steps that go on, only a reset and an accepted START touch the two registers. -/
theorem opAndKeyAreWrittenOnlyByStartAndReset : Obligations.OpAndKeyAreWrittenOnlyByStartAndReset := by
  intro s t hstep hchange
  rcases step_next_cases hstep with ⟨hr, -⟩ | ⟨-, -, rfl⟩ | ⟨-, -, -, rfl⟩ | ⟨-, hv, i, hd, hexec⟩
  · exact .inl hr
  · simp at hchange
  · simp at hchange
  · rcases exec_next_op_key hexec with ⟨hop, hkey⟩ | ⟨op, rfl, hb, hop, hkey⟩
    · simp [hop, hkey] at hchange
    · exact .inr ⟨hv, hb, op, hd, hop, hkey⟩

/-! ### An idle core does not show `OP` and `KEY`

From an idle state with other contents in `OP` and `KEY`, the core does the same until a START or a reset overwrites
both; from there on the two runs are one. -/

/-- The state with other contents in `OP` and `KEY`. -/
def State.withOpKey (c : BitVec 3) (k : KeyWord) (s : State) : State := { s with op := c, key := k }

/-- States that agree but for `OP` and `KEY`: each is the other with its own contents of the two. -/
theorem eq_withOpKey_of_forgetOpKey_eq {s₁ s₂ : State} (h : s₁.forgetOpKey = s₂.forgetOpKey) :
    s₂ = s₁.withOpKey s₂.op s₂.key :=
  calc s₂ = s₂.forgetOpKey.withOpKey s₂.op s₂.key := rfl
    _ = s₁.forgetOpKey.withOpKey s₂.op s₂.key := by rw [h]
    _ = s₁.withOpKey s₂.op s₂.key := rfl

/-- The outcomes are the same, or they are idle states that differ in `OP` and `KEY` only, which hold `c` and `k` in
the second. -/
def SameButIdleOpKey (c : BitVec 3) (k : KeyWord) (o o' : Host.Outcome State Fault Refusal) : Prop :=
  o' = o ∨ ∃ t, t.busy = false ∧ o = .next t ∧ o' = .next (t.withOpKey c k)

theorem withOpKey_raise (c : BitVec 3) (k : KeyWord) (f : HwFault) (s : State) :
    (s.withOpKey c k).raise f = (s.raise f).withOpKey c k := by
  cases f <;> rfl

/-- An accepted START overwrites what `OP` and `KEY` held (R137). -/
theorem exec_start_withOpKey (c : BitVec 3) (k : KeyWord) (op : Op) {s : State} (hb : s.busy = false) :
    exec op.start (s.withOpKey c k) = exec op.start s := by
  rw [exec_start, exec_start, startCommon_of_idle hb, startCommon_of_idle (s := s.withOpKey c k) hb]
  rfl

theorem exec_withOpKey (c : BitVec 3) (k : KeyWord) (i : Instr) {s : State} (hb : s.busy = false) :
    SameButIdleOpKey c k (exec i s) (exec i (s.withOpKey c k)) := by
  cases i with
  | nop => exact .inr ⟨s.respond [] false, hb, rfl, rfl⟩
  | startSsubf => exact .inl (exec_start_withOpKey c k .ssubf hb)
  | startSsubi => exact .inl (exec_start_withOpKey c k .ssubi hb)
  | startPmix => exact .inl (exec_start_withOpKey c k .pmix hb)
  | startEnc => exact .inl (exec_start_withOpKey c k .enc hb)
  | startDec => exact .inl (exec_start_withOpKey c k .dec hb)
  | bit b =>
    refine .inr ⟨s.raise .sequenceError, hb, exec_bit_of_idle hb b, ?_⟩
    rw [exec_bit_of_idle (s := s.withOpKey c k) hb, withOpKey_raise]
  | endCmd =>
    refine .inr ⟨s.raise .sequenceError, hb, exec_endCmd_of_idle hb, ?_⟩
    rw [exec_endCmd_of_idle (s := s.withOpKey c k) hb, withOpKey_raise]

theorem step_withOpKey (c : BitVec 3) (k : KeyWord) {s : State} (hb : s.busy = false) :
    SameButIdleOpKey c k (step s) (step (s.withOpKey c k)) := by
  rcases step_cases s with ⟨hr, hs⟩ | ⟨hr, hv, hs⟩ | ⟨hr, hv, e, hd, hs⟩ | ⟨hr, hv, i, hd, hs⟩
  · rw [hs, step_of_reset (s := s.withOpKey c k) hr]
    exact .inl rfl
  · rw [hs, step_of_no_command (s := s.withOpKey c k) hr hv]
    exact .inr ⟨s.dropCycle.noResponse, hb, rfl, rfl⟩
  · rw [hs, step_of_illegal (s := s.withOpKey c k) hr hv hd]
    exact .inr ⟨s.atCommand.raise .illegalCommand, hb, rfl, rfl⟩
  · rw [hs, step_of_legal (s := s.withOpKey c k) hr hv hd]
    exact exec_withOpKey c k i (s := s.atCommand) hb

theorem runFor_withOpKey (c : BitVec 3) (k : KeyWord) (n : Nat) {s : State} (hb : s.busy = false) :
    SameButIdleOpKey c k (runFor n s) (runFor n (s.withOpKey c k)) := by
  induction n generalizing s with
  | zero => exact .inr ⟨s, hb, rfl, rfl⟩
  | succ n ih =>
    rcases step_withOpKey c k hb with hsame | ⟨t, ht, hs, hs'⟩
    · exact .inl (by rw [runFor, hsame, runFor])
    · rw [runFor_succ n hs, runFor_succ n hs']
      exact ih ht

/-- Settles O33: the two runs end in one state, or in two that differ in `OP` and `KEY` only, which are neither among
the responses nor on the pins. -/
theorem idleOpAndKeyCannotBeObserved : Obligations.IdleOpAndKeyCannotBeObserved := by
  intro n s₁ s₂ t₁ hb hs hrun
  rw [eq_withOpKey_of_forgetOpKey_eq hs]
  rcases runFor_withOpKey s₂.op s₂.key n hb with hsame | ⟨t, -, ht, ht'⟩
  · exact ⟨t₁, hsame.trans hrun, rfl, rfl⟩
  · obtain rfl := Host.Outcome.next.inj (ht.symm.trans hrun)
    exact ⟨_, ht', rfl, rfl⟩

/-! ### The invariant: fields it does not read, and states with empty units -/

/-- The invariant reads `OP`, `BUSY` and the registers of the units; every other field may change. -/
theorem Inv.frame {s : State} (h : Inv s) (key : KeyWord) (illop seqerr : Bool) (rom : Tables) (resp : Response)
    (keyIn : KeyWord) (pending : List Cycle) (sent : List Response) :
    Inv { s with key := key, illop := illop, seqerr := seqerr, rom := rom, resp := resp, keyIn := keyIn,
                 pending := pending, sent := sent } :=
  ⟨h.saccBelow, h.paccBelow, h.idleEmpty, h.opLegal, h.ssubPcnt, h.pmixScnt, h.encPcnt, h.decScnt⟩

/-- With both units empty, only the clause on `OP` is left: so it is after a reset, a START and an END. -/
theorem inv_of_empty {s : State} {op : Op} (hop : s.op = opCode op) (hsacc : s.sacc = 0#4) (hscnt : s.scnt = 0#2)
    (hpacc : s.pacc = 0#8) (hpcnt : s.pcnt = 0#3) : Inv s where
  saccBelow := by simp [hsacc, hscnt]
  paccBelow := by simp [hpacc, hpcnt]
  idleEmpty _ := ⟨hscnt, hpcnt, hsacc, hpacc⟩
  opLegal := by simp [hop]
  ssubPcnt _ := hpcnt
  pmixScnt _ := hscnt
  encPcnt _ := .inl hpcnt
  decScnt _ := hscnt

/-- Settles O26: both units are empty after reset, and `OP` holds the code of SSUBF. -/
theorem invariantHoldsAtReset : Obligations.InvariantHoldsAtReset :=
  inv_of_empty (op := .ssubf) rfl rfl rfl rfl rfl

theorem inv_resetRegisters (s : State) : Inv s.resetRegisters :=
  inv_of_empty (op := .ssubf) rfl rfl rfl rfl rfl

theorem inv_openTransaction (op : Op) (key : KeyWord) (s : State) : Inv (s.openTransaction (opCode op) key) :=
  inv_of_empty rfl rfl rfl rfl rfl

/-! ### The invariant as a statement on the bits that wait -/

/-- R32(e) for the one operation that is open: how many bits may wait in the S unit and in the P unit. -/
def CountsFit : Op → Nat → Nat → Prop
  | .ssubf, _, pcnt => pcnt = 0
  | .ssubi, _, pcnt => pcnt = 0
  | .pmix, scnt, _ => scnt = 0
  | .enc, _, pcnt => pcnt = 0 ∨ pcnt = 4
  | .dec, scnt, _ => scnt = 0

theorem Inv.countsFit {s : State} {op : Op} (h : Inv s) (hop : s.op = opCode op) :
    CountsFit op s.scnt.toNat s.pcnt.toNat := by
  cases op with
  | ssubf => simp [CountsFit, h.ssubPcnt (.inl hop)]
  | ssubi => simp [CountsFit, h.ssubPcnt (.inr hop)]
  | pmix => simp [CountsFit, h.pmixScnt hop]
  | enc => rcases h.encPcnt hop with hp | hp <;> simp [CountsFit, hp]
  | dec => simp [CountsFit, h.decScnt hop]

theorem SWaiting.below {g : Bits} {s : State} (h : SWaiting g s) : s.sacc.toNat < 2 ^ s.scnt.toNat := by
  rw [h.value, h.count]
  exact b2n_lt g

theorem PWaiting.below {g : Bits} {s : State} (h : PWaiting g s) : s.pacc.toNat < 2 ^ s.pcnt.toNat := by
  rw [h.value, h.count]
  exact b2n_lt g

theorem opCode_injective : Function.Injective opCode := by
  intro op op' h
  have hsome := congrArg opOfCode h
  simpa using hsome

/-- A busy state meets the invariant when its units hold bits and the numbers of these fit its operation. -/
theorem inv_of_waiting {g h : Bits} {s : State} {op : Op} (hbusy : s.busy = true) (hop : s.op = opCode op)
    (hs : SWaiting g s) (hp : PWaiting h s) (hfit : CountsFit op g.length h.length) : Inv s := by
  rw [← hs.count, ← hp.count] at hfit
  have heq : ∀ {op'}, s.op = opCode op' → op = op' := fun h' => opCode_injective (hop.symm.trans h')
  constructor
  case saccBelow => exact hs.below
  case paccBelow => exact hp.below
  case idleEmpty => simp [hbusy]
  case opLegal => simp [hop]
  case ssubPcnt =>
    rintro (h' | h')
    · obtain rfl := heq h'
      exact BitVec.eq_of_toNat_eq hfit
    · obtain rfl := heq h'
      exact BitVec.eq_of_toNat_eq hfit
  case pmixScnt =>
    intro h'
    obtain rfl := heq h'
    exact BitVec.eq_of_toNat_eq hfit
  case encPcnt =>
    intro h'
    obtain rfl := heq h'
    exact hfit.imp BitVec.eq_of_toNat_eq BitVec.eq_of_toNat_eq
  case decScnt =>
    intro h'
    obtain rfl := heq h'
    exact BitVec.eq_of_toNat_eq hfit

/-! ### An accepted BIT: what waits in the units after it -/

theorem sWaiting_setP {g : Bits} {s : State} (h : SWaiting g s) (acc : Octet) (cnt : BitVec 3) :
    SWaiting g (s.setP acc cnt) := ⟨h.count, h.value⟩

theorem pWaiting_setS {g : Bits} {s : State} (h : PWaiting g s) (acc : Nibble) (cnt : BitVec 2) :
    PWaiting g (s.setS acc cnt) := ⟨h.count, h.value⟩

/-- A fed S unit keeps the short last group of its bits. -/
theorem sWaiting_sFeed {g : Bits} {s : State} (T : STable) (xs : Bits) (h : SWaiting g s) :
    SWaiting (sTail (g ++ xs)) (sFeed T xs s).2 := by
  rw [sFeed_eq T xs h]
  exact sWaiting_setS _ s (by rw [length_sTail]; omega)

/-- A fed P unit keeps the short last group of its bits. -/
theorem pWaiting_pFeed {g : Bits} {s : State} (xs : Bits) (h : PWaiting g s) :
    PWaiting (pTail (g ++ xs)) (pFeed xs s).2 := by
  rw [pFeed_eq xs h]
  exact pWaiting_setP _ s (by rw [length_pTail]; omega)

theorem pWaiting_sFeed {g : Bits} {s : State} (T : STable) (xs : Bits) (h : PWaiting g s) :
    PWaiting g (sFeed T xs s).2 := by
  obtain ⟨a, c, hfeed⟩ := sFeed_snd T xs s
  rw [hfeed]
  exact pWaiting_setS h a c

theorem sWaiting_pFeed {g : Bits} {s : State} (xs : Bits) (h : SWaiting g s) : SWaiting g (pFeed xs s).2 := by
  obtain ⟨a, c, hfeed⟩ := pFeed_snd xs s
  rw [hfeed]
  exact sWaiting_setP h a c

/-- The S unit releases a group of 4 or nothing (R139). -/
theorem length_sPush (T : STable) (b : Bit) (s : State) :
    (sPush T b s).1.length = 0 ∨ (sPush T b s).1.length = 4 := by
  unfold sPush
  split_ifs
  · exact .inr (length_n2b _ _)
  · exact .inl rfl

/-- The P unit releases a group of 8 or nothing (R141). -/
theorem length_pPush (b : Bit) (s : State) : (pPush b s).1.length = 0 ∨ (pPush b s).1.length = 8 := by
  unfold pPush
  split_ifs
  · exact .inr (length_n2b _ _)
  · exact .inl rfl

/-- The counts fit again after a BIT: a half group of 4 or none is left in the P unit under ENC, for the S unit releases
groups of 4, and nothing is left in the S unit under DEC, for the P unit releases groups of 8 (R32(e)). -/
theorem pushBit_waiting {op : Op} {g h : Bits} {s : State} (b : Bit) (hs : SWaiting g s) (hp : PWaiting h s)
    (hfit : CountsFit op g.length h.length) :
    ∃ g' h', SWaiting g' (pushBit op b s).2 ∧ PWaiting h' (pushBit op b s).2 ∧
      CountsFit op g'.length h'.length := by
  cases op with
  | ssubf =>
    rw [pushBit, ← sFeed_singleton]
    exact ⟨_, h, sWaiting_sFeed s.rom.enc [b] hs, pWaiting_sFeed s.rom.enc [b] hp, hfit⟩
  | ssubi =>
    rw [pushBit, ← sFeed_singleton]
    exact ⟨_, h, sWaiting_sFeed s.rom.dec [b] hs, pWaiting_sFeed s.rom.dec [b] hp, hfit⟩
  | pmix =>
    rw [pushBit, ← pFeed_singleton]
    exact ⟨g, _, sWaiting_pFeed [b] hs, pWaiting_pFeed [b] hp, hfit⟩
  | enc =>
    have hq := length_sPush s.rom.enc b s
    rw [pushBit]
    rw [← sFeed_singleton] at hq ⊢
    refine ⟨_, _, sWaiting_pFeed _ (sWaiting_sFeed s.rom.enc [b] hs),
      pWaiting_pFeed _ (pWaiting_sFeed s.rom.enc [b] hp), ?_⟩
    simp only [CountsFit, length_pTail, List.length_append] at hfit ⊢
    omega
  | dec =>
    have hq := length_pPush b s
    rw [pushBit]
    rw [← pFeed_singleton] at hq ⊢
    refine ⟨_, _, sWaiting_sFeed s.rom.dec _ (sWaiting_pFeed [b] hs),
      pWaiting_sFeed s.rom.dec _ (pWaiting_pFeed [b] hp), ?_⟩
    simp only [CountsFit, length_sTail, List.length_append] at hfit ⊢
    omega

theorem inv_pushBit {op : Op} {s : State} (b : Bit) (h : Inv s) (hbusy : s.busy = true) (hop : s.op = opCode op) :
    Inv (pushBit op b s).2 := by
  obtain ⟨g, hs⟩ := exists_sWaiting s h.saccBelow
  obtain ⟨p, hp⟩ := exists_pWaiting s h.paccBelow
  have hfit := h.countsFit hop
  rw [hs.count, hp.count] at hfit
  obtain ⟨g', p', hs', hp', hfit'⟩ := pushBit_waiting b hs hp hfit
  obtain ⟨a, c, q, n, hpush⟩ := pushBit_snd op b s
  exact inv_of_waiting (by simpa [hpush] using hbusy) (by simpa [hpush] using hop) hs' hp' hfit'

/-! ### An accepted END: both units are empty after it -/

theorem setS_zero_of_empty {s : State} (h : s.sacc.toNat < 2 ^ s.scnt.toNat) (hc : s.scnt = 0#2) :
    s.setS 0#4 0#2 = s := by
  have ha : s.sacc = 0#4 := BitVec.eq_of_toNat_eq (by simpa [hc] using h)
  rw [← ha, ← hc]
  rfl

theorem setP_zero_of_empty {s : State} (h : s.pacc.toNat < 2 ^ s.pcnt.toNat) (hc : s.pcnt = 0#3) :
    s.setP 0#8 0#3 = s := by
  have ha : s.pacc = 0#8 := BitVec.eq_of_toNat_eq (by simpa [hc] using h)
  rw [← ha, ← hc]
  rfl

/-- An END flushes the units of its operation, and what it does not flush holds nothing (R144, R32(e)). -/
theorem flushUnits_snd_of_inv {op : Op} {s : State} (h : Inv s) (hop : s.op = opCode op) :
    (flushUnits op s).2 = (s.setS 0#4 0#2).setP 0#8 0#3 := by
  cases op with
  | ssubf => exact congrArg (State.setS 0#4 0#2) (setP_zero_of_empty h.paccBelow (h.ssubPcnt (.inl hop))).symm
  | ssubi => exact congrArg (State.setS 0#4 0#2) (setP_zero_of_empty h.paccBelow (h.ssubPcnt (.inr hop))).symm
  | pmix => exact congrArg (State.setP 0#8 0#3) (setS_zero_of_empty h.saccBelow (h.pmixScnt hop)).symm
  | enc => rfl
  | dec =>
    obtain ⟨a, c, hfeed⟩ := sFeed_snd s.rom.dec (pFlush s).1 (pFlush s).2
    rw [flushUnits, sFlush, hfeed]
    rfl

theorem inv_flushUnits {op : Op} {s : State} (h : Inv s) (hop : s.op = opCode op) :
    Inv (flushUnits op s).2.closeTransaction := by
  rw [flushUnits_snd_of_inv h hop]
  exact inv_of_empty hop rfl rfl rfl rfl

/-! ### Every command and every step keeps the invariant -/

theorem inv_exec {i : Instr} {s t : State} (h : Inv s) (hexec : exec i s = .next t) : Inv t := by
  rcases exec_next_cases hexec with
    ⟨-, rfl⟩ | ⟨-, rfl⟩ | ⟨op, -, -, rfl⟩ | ⟨b, op, -, hbusy, hop, rfl⟩ | ⟨op, -, -, hop, rfl⟩
  · exact h.frame ..
  · exact h.frame ..
  · exact (inv_openTransaction op s.keyIn s).frame ..
  · exact (inv_pushBit b h hbusy hop).frame ..
  · exact (inv_flushUnits h hop).frame ..

/-- Settles O27, by the cases of the step (R135, R176). -/
theorem everyStepKeepsTheInvariant : Obligations.EveryStepKeepsTheInvariant := by
  intro s t h hstep
  rcases step_next_cases hstep with ⟨-, rfl⟩ | ⟨-, -, rfl⟩ | ⟨-, -, -, rfl⟩ | ⟨-, -, i, -, hexec⟩
  · exact inv_resetRegisters s.dropCycle
  · exact h.frame ..
  · exact h.frame ..
  · exact inv_exec (s := s.atCommand) (h.frame ..) hexec

end Sys2Proof.Machine

/-! PROOFS. The statements on spec 20_memory.md: no run writes a table and an entry's index is `4*row + col` (R41, R56),
and the groups of a stage are independent lanes (R43). -/

namespace Sys2Proof.Machine

/-! ### What every step keeps, every run keeps -/

theorem runFor_keeps {P : State → Prop} (hstep : ∀ s t, P s → step s = .next t → P t) {n : Nat} {s t : State}
    (hs : P s) (hrun : runFor n s = .next t) : P t := by
  induction n generalizing s with
  | zero => exact Host.Outcome.next.inj hrun ▸ hs
  | succ n ih =>
    cases h : step s with
    | next u =>
      rw [runFor_succ n h] at hrun
      exact ih (hstep s u hs h) hrun
    | fault r => simp [runFor, h] at hrun
    | refused r => simp [runFor, h] at hrun

/-! ### The tables: no write path, and the index of an entry -/

@[simp] theorem atCommand_rom (s : State) : s.atCommand.rom = s.rom := rfl

theorem exec_next_rom {i : Instr} {s t : State} (h : exec i s = .next t) : t.rom = s.rom := by
  rcases exec_next_cases h with ⟨-, rfl⟩ | ⟨-, rfl⟩ | ⟨op, -, -, rfl⟩ | ⟨b, op, -, -, -, rfl⟩ | ⟨op, -, -, -, rfl⟩
  · rfl
  · rfl
  · rfl
  · obtain ⟨a, c, p, n, hpush⟩ := pushBit_snd op b s
    simp [hpush]
  · obtain ⟨a, c, p, n, hflush⟩ := flushUnits_snd op s
    simp [hflush]

theorem step_next_rom {s t : State} (h : step s = .next t) : t.rom = s.rom := by
  rcases step_next_cases h with ⟨-, rfl⟩ | ⟨-, -, rfl⟩ | ⟨-, -, -, rfl⟩ | ⟨-, -, i, -, hexec⟩
  · rfl
  · rfl
  · rfl
  · exact (exec_next_rom hexec).trans (atCommand_rom s)

theorem rowOf_flatIndex (row col : Fin 4) : (rowOf (BitVec.ofNat 4 (4 * row.val + col.val))).toNat = row.val := by
  simp only [rowOf, BitVec.extractLsb'_toNat, BitVec.toNat_ofNat, Nat.shiftRight_eq_div_pow]
  omega

theorem colOf_flatIndex (row col : Fin 4) : (colOf (BitVec.ofNat 4 (4 * row.val + col.val))).toNat = col.val := by
  simp only [colOf, BitVec.extractLsb'_toNat, BitVec.toNat_ofNat, Nat.shiftRight_zero]
  omega

theorem romRead_flatIndex (T : STable) (row col : Fin 4) :
    romRead T (BitVec.ofNat 4 (4 * row.val + col.val)) = (T.get row).get col := by
  simp only [romRead, rowOf_flatIndex, colOf_flatIndex]

/-- Settles O31: each step leaves the tables as they are, so each run does; and the flat index falls apart into its row
and its column. -/
theorem tablesAreReadOnly : Obligations.TablesAreReadOnly :=
  ⟨fun _ s _ hrun => runFor_keeps (P := fun u => u.rom = s.rom)
      (fun _ _ hkept hstep => (step_next_rom hstep).trans hkept) rfl hrun,
    romRead_flatIndex⟩

/-! ### The groups are independent lanes -/

/-- A stage that handles a group of `w` bits at the front apart from the rest splits after any number `k` of full
groups (R43). -/
theorem stage_append {w : Nat} {stage group : Bits → Bits} (hnil : stage [] = [])
    (hgroup : ∀ g rest, g.length = w → stage (g ++ rest) = group g ++ stage rest) {k : Nat} {a : Bits}
    (ha : a.length = w * k) (b : Bits) : stage (a ++ b) = stage a ++ stage b := by
  induction k generalizing a with
  | zero => rw [List.length_eq_zero_iff.mp ha, hnil, List.nil_append, List.nil_append]
  | succ k ih =>
    rw [Nat.mul_succ] at ha
    have hfront : (a.take w).length = w := by rw [List.length_take]; omega
    have hrest : (a.drop w).length = w * k := by rw [List.length_drop]; omega
    rw [← List.take_append_drop w a, List.append_assoc, hgroup _ _ hfront, hgroup _ _ hfront, ih hrest,
      List.append_assoc]

theorem applySBlock_append {a : Bits} (ha : a.length % 4 = 0) (b : Bits) (T : STable) :
    applySBlock (a ++ b) T = applySBlock a T ++ applySBlock b T :=
  stage_append (stage := (applySBlock · T)) (applySBlock_short [] T (by decide))
    (fun g rest => applySBlock_group g rest T) (Nat.mul_div_cancel' (Nat.dvd_of_mod_eq_zero ha)).symm b

theorem applyPBlock_append {a : Bits} (ha : a.length % 8 = 0) (b : Bits) (key : Nat) :
    applyPBlock (a ++ b) key = applyPBlock a key ++ applyPBlock b key :=
  stage_append (stage := (applyPBlock · key)) (applyPBlock_nil key)
    (fun g rest => applyPBlock_group g rest key) (Nat.mul_div_cancel' (Nat.dvd_of_mod_eq_zero ha)).symm b

/-- Settles O43: both stages split at the boundaries of their groups. -/
theorem groupsAreIndependentLanes : Obligations.GroupsAreIndependentLanes :=
  ⟨fun _ b T ha => applySBlock_append ha b T, fun _ b key ha => applyPBlock_append ha b key⟩

end Sys2Proof.Machine

/-! PROOFS. The statements on spec 30_encoding.md: which words decode to a command and which select a row (R62, R66 to
R68), what the words of `XACT` present (R72), and the output pins of a response (R69). -/

namespace Sys2Proof.Machine

/-! ### A word is made of its fields -/

theorem word_eq_end_fields (w : CommandWord) : w = (kindField w ++ endReserved w : BitVec (2 + 6)) :=
  (BitVec.extractLsb'_append_extractLsb' (w := 2) (len := 6)).symm

theorem word_eq_start_fields (w : CommandWord) :
    w = (kindField w ++ startReserved w ++ opField w : BitVec (2 + 3 + 3)) := by
  have hfront : (kindField w ++ startReserved w : BitVec (2 + 3)) = w.extractLsb' 3 5 :=
    BitVec.extractLsb'_append_extractLsb'_eq_extractLsb' rfl
  rw [hfront]
  exact (BitVec.extractLsb'_append_extractLsb' (w := 5) (len := 3)).symm

theorem ofBool_bitField (w : CommandWord) : BitVec.ofBool (bitField w) = w.extractLsb' 0 1 := by
  ext i hi
  obtain rfl : i = 0 := by omega
  simp [bitField]

theorem word_eq_bit_fields (w : CommandWord) :
    w = (kindField w ++ bitReserved w ++ BitVec.ofBool (bitField w) : BitVec (2 + 5 + 1)) := by
  have hfront : (kindField w ++ bitReserved w : BitVec (2 + 5)) = w.extractLsb' 1 7 :=
    BitVec.extractLsb'_append_extractLsb'_eq_extractLsb' rfl
  rw [hfront, ofBool_bitField]
  exact (BitVec.extractLsb'_append_extractLsb' (w := 7) (len := 1)).symm

theorem kindField_eq_three {w : CommandWord} (h0 : kindField w ≠ 0b00#2) (h1 : kindField w ≠ 0b01#2)
    (h2 : kindField w ≠ 0b10#2) : kindField w = 0b11#2 := by
  generalize kindField w = k at *
  revert k
  decide

theorem kindField_eq_zero_iff {w : CommandWord} : kindField w = 0b00#2 ↔ w.toNat < 0x40 := by
  rw [← BitVec.toNat_inj, kindField, BitVec.extractLsb'_toNat, Nat.shiftRight_eq_div_pow, BitVec.toNat_ofNat]
  have hw : w.toNat < 2 ^ 8 := w.isLt
  omega

/-! ### The fields that tell a command fix its word -/

theorem eq_encode_start {w : CommandWord} {op : Op} (hkind : kindField w = 0b01#2)
    (hres : startReserved w = 0b000#3) (hop : opField w = opCode op) : w = encode op.start := by
  rw [word_eq_start_fields w, hkind, hres, hop]
  cases op <;> rfl

theorem eq_encode_bit {w : CommandWord} (hkind : kindField w = 0b10#2) (hres : bitReserved w = 0b00000#5) :
    w = encode (.bit (bitField w)) := by
  have hw := word_eq_bit_fields w
  rw [hkind, hres] at hw
  rw [hw]
  cases bitField w <;> rfl

theorem eq_encode_endCmd {w : CommandWord} (hkind : kindField w = 0b11#2) (hres : endReserved w = 0b000000#6) :
    w = encode .endCmd := by
  rw [word_eq_end_fields w, hkind, hres]
  rfl

theorem and_significantBits_nop_iff {w : CommandWord} :
    w &&& significantBits .nop = encode .nop ↔ kindField w = 0b00#2 := by
  have hmask : w &&& significantBits .nop = (kindField w ++ 0b000000#6 : BitVec (2 + 6)) := by
    have h := BitVec.and_append (x₁ := kindField w) (y₁ := endReserved w) (x₂ := 0b11#2) (y₂ := 0b000000#6)
    rw [← word_eq_end_fields] at h
    exact h.trans (congrArg₂ _ BitVec.and_allOnes BitVec.and_zero)
  rw [hmask]
  exact BitVec.append_left_inj (s₂ := 0b00#2) 0b000000#6

theorem and_significantBits_of_ne_nop {i : Instr} (hi : i ≠ .nop) (w : CommandWord) : w &&& significantBits i = w := by
  cases i with
  | nop => exact absurd rfl hi
  | _ => exact BitVec.and_allOnes

/-! ### The decoder reads exactly the words of a command -/

theorem encodedWord_statement (i : Instr) : Laws.EncodedWord.Statement i := by
  cases i with
  | nop => exact Laws.EncodedWord.nop
  | startSsubf => exact Laws.EncodedWord.startSsubf
  | startSsubi => exact Laws.EncodedWord.startSsubi
  | startPmix => exact Laws.EncodedWord.startPmix
  | startEnc => exact Laws.EncodedWord.startEnc
  | startDec => exact Laws.EncodedWord.startDec
  | bit b => exact Laws.EncodedWord.bit b
  | endCmd => exact Laws.EncodedWord.endCmd

@[simp] theorem legalWord_encode (i : Instr) : legalWord (encode i) = true :=
  let ⟨_, hlegal, _, _⟩ := encodedWord_statement i
  hlegal

@[simp] theorem decode_encode (i : Instr) : decode (encode i) = .ok i :=
  let ⟨_, _, _, hdecode⟩ := encodedWord_statement i
  hdecode

/-- An accepted word is one of the 64 words of `NOP` or the one word of another command (R62, R67). -/
theorem decode_eq_ok_cases {w : CommandWord} {i : Instr} (h : decode w = .ok i) :
    (i = .nop ∧ kindField w = 0b00#2) ∨ (i ≠ .nop ∧ w = encode i) := by
  unfold decode at h
  split_ifs at h with hnop hstart hres h0 h1 h2 h4 h5 hbit hres hres <;> cases h
  · exact .inl ⟨rfl, hnop⟩
  · exact .inr ⟨nofun, eq_encode_start (op := .ssubf) hstart (not_not.mp hres) h0⟩
  · exact .inr ⟨nofun, eq_encode_start (op := .ssubi) hstart (not_not.mp hres) h1⟩
  · exact .inr ⟨nofun, eq_encode_start (op := .pmix) hstart (not_not.mp hres) h2⟩
  · exact .inr ⟨nofun, eq_encode_start (op := .enc) hstart (not_not.mp hres) h4⟩
  · exact .inr ⟨nofun, eq_encode_start (op := .dec) hstart (not_not.mp hres) h5⟩
  · exact .inr ⟨nofun, eq_encode_bit hbit (not_not.mp hres)⟩
  · exact .inr ⟨nofun, eq_encode_endCmd (kindField_eq_three hnop hstart hbit) (not_not.mp hres)⟩

/-- Settles O2: an accepted word is any word of `NOP` or the one word of another command, and all these are accepted. -/
theorem decodeReadsExactlyTheWordsOfACommand : Obligations.DecodeReadsExactlyTheWordsOfACommand := by
  intro i w
  constructor
  · intro h
    rcases decode_eq_ok_cases h with ⟨rfl, hkind⟩ | ⟨hi, hw⟩
    · exact and_significantBits_nop_iff.mpr hkind
    · rw [and_significantBits_of_ne_nop hi, hw]
  · intro h
    by_cases hi : i = .nop
    · subst hi
      exact if_pos (and_significantBits_nop_iff.mp h)
    · rw [and_significantBits_of_ne_nop hi] at h
      rw [h, decode_encode]

/-! ### The words of `XACT` -/

@[simp] theorem hostCommand_instr_keyIn (h : HostCommand) : hostCommand h.instr h.keyIn = h := by
  cases h with
  | start op key => cases op <;> rfl
  | _ => rfl

/-- Cycles without a command present nothing (R135). -/
theorem commandsOf_gap_append {gap : List Cycle} (hgap : ∀ c ∈ gap, c.rst = false ∧ c.cmdValid = false)
    (cs : List Cycle) : commandsOf (gap ++ cs) = commandsOf cs := by
  induction gap with
  | nil => rfl
  | cons c gap ih =>
    obtain ⟨⟨hr, hv⟩, htail⟩ := List.forall_mem_cons.mp hgap
    simpa [commandsOf, hr, hv] using ih htail

/-- The words of a list of commands present these commands. -/
theorem commandsOf_map_cycle (hs : List HostCommand) : commandsOf (hs.map HostCommand.cycle) = some hs := by
  induction hs with
  | nil => rfl
  | cons h hs ih => simp [commandsOf, HostCommand.cycle, Cycle.command, ih]

/-- Settles O5: the cycles of the gap present nothing, and the words of the expansion present its commands, which are
those of the transaction. -/
theorem xactPresentsItsTransaction : Obligations.XactPresentsItsTransaction := by
  intro t gap hgap
  rw [commandsOf_gap_append hgap]
  exact commandsOf_map_cycle t.commands

/-! ### The output pins -/

theorem testBit_b2n (g : Bits) {i : Nat} (hi : i < g.length) : (b2n g).testBit (g.length - 1 - i) = g.getD i false := by
  rw [← getElem_n2b (b2n g) g.length i (by simpa using hi), List.getD_eq_getElem g false hi]
  simp only [n2b_b2n_length]

theorem getD_append_zeros (q : Bits) (k i : Nat) : (q ++ List.replicate k false).getD i false = q.getD i false := by
  rcases Nat.lt_or_ge i q.length with hi | hi
  · exact List.getD_append q _ false i hi
  · rw [List.getD_append_right q _ false i hi, List.getD_eq_default q false hi]
    rw [List.getD_eq_getElem?_getD, List.getElem?_replicate]
    split <;> rfl

theorem leftJustified_getLsbD {q : Bits} (hq : q.length ≤ 8) {i : Nat} (hi : i < 8) :
    (leftJustified q).getLsbD (7 - i) = q.getD i false := by
  have hlen : (q ++ List.replicate (8 - q.length) false).length = 8 := by simp [hq]
  have hbit := testBit_b2n (q ++ List.replicate (8 - q.length) false) (hlen.symm ▸ hi)
  rw [hlen, getD_append_zeros] at hbit
  have hpos : 7 - i < 8 := by omega
  rw [leftJustified, BitVec.getLsbD_ofNat, decide_eq_true hpos, Bool.true_and]
  exact hbit

/-- Settles O25, pin by pin. -/
theorem outPinsShowTheResponse : Obligations.OutPinsShowTheResponse := by
  intro s hs
  refine ⟨?_, rfl, ?_, fun i hi => leftJustified_getLsbD hs hi⟩
  · simp only [State.outPins, BitVec.toNat_ofNat]
    omega
  · simp [State.outPins]

/-! ### Words of the opcode table and the rows they select -/

/-- Settles O1: fourteen fixed words, decoded. -/
theorem wordsOfTheOpcodeTableDecode : Obligations.WordsOfTheOpcodeTableDecode := by
  unfold Obligations.WordsOfTheOpcodeTableDecode
  decide

theorem legalWord_eq_true_iff {w : CommandWord} : legalWord w = true ↔ ∃ r ∈ opcodeRows, w &&& r.2 = r.1 := by
  simp [legalWord, selectedRows]

theorem legalWord_eq_false_iff {w : CommandWord} : legalWord w = false ↔ selectedRows w = [] := by
  simp [legalWord]

theorem eq_encode_of_bitRow {w : CommandWord} (h : w &&& 0xFE#8 = 0x80#8) : w = encode (.bit (bitField w)) :=
  calc w = w &&& (0xFE#8 ||| 0x01#8) := BitVec.and_allOnes.symm
    _ = (w &&& 0xFE#8) ||| (w &&& 0x01#8) := BitVec.and_or_distrib_left
    _ = encode (.bit (bitField w)) := by rw [h, BitVec.and_one_eq_setWidth_ofBool_getLsbD]; rfl

/-- Each row holds the words of one command, the row of `BIT` those of both its operands (R62). -/
theorem legalWord_iff_decodes {w : CommandWord} : legalWord w = true ↔ ∃ i, decode w = .ok i := by
  constructor
  · simp only [legalWord_eq_true_iff, decodeReadsExactlyTheWordsOfACommand _ w, opcodeRows, List.mem_cons,
      List.not_mem_nil, or_false]
    rintro ⟨r, rfl | rfl | rfl | rfl | rfl | rfl | rfl | rfl, h⟩
    · exact ⟨.nop, h⟩
    · exact ⟨.startSsubf, h⟩
    · exact ⟨.startSsubi, h⟩
    · exact ⟨.startPmix, h⟩
    · exact ⟨.startEnc, h⟩
    · exact ⟨.startDec, h⟩
    · exact ⟨.bit (bitField w), BitVec.and_allOnes.trans (eq_encode_of_bitRow h)⟩
    · exact ⟨.endCmd, h⟩
  · rintro ⟨i, h⟩
    rcases decode_eq_ok_cases h with ⟨-, hkind⟩ | ⟨-, rfl⟩
    · exact legalWord_eq_true_iff.mpr ⟨_, .head _, and_significantBits_nop_iff.mpr hkind⟩
    · exact legalWord_encode i

/-- No word selects two rows: the matches of any two differ in a bit that both masks keep. -/
theorem opcodeRows_disjoint : opcodeRows.Pairwise fun r q => r.1 &&& q.2 ≠ q.1 &&& r.2 := by decide

theorem length_selectedRows_le_one (w : CommandWord) : (selectedRows w).length ≤ 1 := by
  have hdisjoint := opcodeRows_disjoint.filter fun r => w &&& r.2 = r.1
  have hmatch : ∀ r ∈ selectedRows w, w &&& r.2 = r.1 := by simp [selectedRows]
  change (selectedRows w).Pairwise _ at hdisjoint
  match selectedRows w, hdisjoint, hmatch with
  | [], _, _ => exact Nat.zero_le 1
  | [_], _, _ => exact Nat.le_refl 1
  | r :: q :: _, hdisjoint, hmatch =>
    refine absurd ?_ (List.rel_of_pairwise_cons hdisjoint (.head _))
    rw [← hmatch r (.head _), ← hmatch q (.tail _ (.head _)), BitVec.and_assoc, BitVec.and_assoc,
      BitVec.and_comm r.2]

theorem legalWord_of_toNat {w : CommandWord} (i : Instr) (h : w.toNat = (encode i).toNat) : legalWord w = true :=
  BitVec.eq_of_toNat_eq h ▸ legalWord_encode i

/-- The legal words as numbers (R62, R66). -/
theorem legalWord_iff_toNat {w : CommandWord} :
    legalWord w = true ↔ w.toNat < 0x43 ∨ w.toNat = 0x44 ∨ w.toNat = 0x45 ∨ w.toNat = 0x80 ∨ w.toNat = 0x81 ∨
      w.toNat = 0xC0 := by
  constructor
  · intro h
    obtain ⟨i, hi⟩ := legalWord_iff_decodes.mp h
    rcases decode_eq_ok_cases hi with ⟨-, hkind⟩ | ⟨-, rfl⟩
    · have hlt := kindField_eq_zero_iff.mp hkind
      omega
    · cases i with
      | bit b => cases b <;> decide
      | _ => decide
  · intro h
    have hsplit : w.toNat < 0x40 ∨ w.toNat = 0x40 ∨ w.toNat = 0x41 ∨ w.toNat = 0x42 ∨ w.toNat = 0x44 ∨
        w.toNat = 0x45 ∨ w.toNat = 0x80 ∨ w.toNat = 0x81 ∨ w.toNat = 0xC0 := by omega
    rcases hsplit with h | h | h | h | h | h | h | h | h
    · exact legalWord_iff_decodes.mpr ⟨.nop, if_pos (kindField_eq_zero_iff.mpr h)⟩
    · exact legalWord_of_toNat .startSsubf h
    · exact legalWord_of_toNat .startSsubi h
    · exact legalWord_of_toNat .startPmix h
    · exact legalWord_of_toNat .startEnc h
    · exact legalWord_of_toNat .startDec h
    · exact legalWord_of_toNat (.bit false) h
    · exact legalWord_of_toNat (.bit true) h
    · exact legalWord_of_toNat .endCmd h

/-- Settles O3: the rows are disjoint, the legal words are those the decoder accepts, and their numbers are known, so
that they can be counted. -/
theorem legalWordsSelectOneRow : Obligations.LegalWordsSelectOneRow := by
  refine ⟨fun w => ⟨fun h => ⟨?_, legalWord_iff_decodes.mp h⟩, fun h => ⟨legalWord_eq_false_iff.mp h, ?_⟩, ?_⟩, ?_⟩
  · have hne : selectedRows w ≠ [] := mt legalWord_eq_false_iff.mpr (by simp [h])
    exact Nat.le_antisymm (length_selectedRows_le_one w) (List.length_pos_iff.mpr hne)
  · cases hd : decode w with
    | error e => exact ⟨e, rfl⟩
    | ok i => exact absurd (legalWord_iff_decodes.mpr ⟨i, hd⟩) (by simp [h])
  · rw [← Bool.not_eq_true, legalWord_iff_toNat]
    omega
  · decide

end Sys2Proof.Machine

/-! PROOFS. The statements on spec 40_sblock.md: the S stage reads the full groups of 4 only (R84), and one table undoes
the other on them (R88). Both go group by group, by one induction over the groups of a sequence. -/

namespace Sys2Proof.Machine

/-! ### A sequence, group by group -/

/-- What holds of a sequence shorter than a group, and of a group in front of a sequence it holds of, holds of every
sequence (R83). -/
theorem sGroups_induction {P : Bits → Prop} (short : ∀ s : Bits, s.length < 4 → P s)
    (group : ∀ g rest : Bits, g.length = 4 → P rest → P (g ++ rest)) (s : Bits) : P s := by
  induction hk : s.length / 4 generalizing s with
  | zero => exact short s (by omega)
  | succ k ih =>
    have hfront : (s.take 4).length = 4 := by rw [List.length_take]; omega
    have hrest : (s.drop 4).length / 4 = k := by rw [List.length_drop]; omega
    rw [← List.take_append_drop 4 s]
    exact group _ _ hfront (ih _ hrest)

/-- The full groups of 4 of a sequence (R83). -/
def sFull (s : Bits) : Bits := s.take (4 * (s.length / 4))

theorem length_sFull (s : Bits) : (sFull s).length = 4 * (s.length / 4) := by
  rw [sFull, List.length_take]
  omega

theorem sFull_append_sTail (s : Bits) : sFull s ++ sTail s = s := List.take_append_drop _ s

theorem sFull_short (s : Bits) (h : s.length < 4) : sFull s = [] := by simp [sFull, Nat.div_eq_of_lt h]

theorem sFull_group (a b : Bits) (h : a.length = 4) : sFull (a ++ b) = a ++ sFull b := by
  have hn : 4 * ((a ++ b).length / 4) = a.length + 4 * (b.length / 4) := by rw [List.length_append]; omega
  rw [sFull, hn, List.take_length_add_append, sFull]

/-! ### The stage drops a short last group -/

theorem length_applySBlock (s : Bits) (T : STable) : (applySBlock s T).length = s.length / 4 * 4 := by
  induction s using sGroups_induction with
  | short s hs => rw [applySBlock_short s T hs, List.length_nil, Nat.div_eq_of_lt hs]
  | group g rest hg ih =>
    rw [applySBlock_group g rest T hg, List.length_append, List.length_append, length_n2b, ih, hg]
    omega

theorem applySBlock_sFull (s : Bits) (T : STable) : applySBlock (sFull s) T = applySBlock s T := by
  have haligned : (sFull s).length % 4 = 0 := by rw [length_sFull]; omega
  have hshort : (sTail s).length < 4 := by rw [length_sTail]; omega
  calc applySBlock (sFull s) T
      = applySBlock (sFull s) T ++ applySBlock (sTail s) T := by rw [applySBlock_short _ T hshort, List.append_nil]
    _ = applySBlock (sFull s ++ sTail s) T := (applySBlock_append haligned _ T).symm
    _ = applySBlock s T := by rw [sFull_append_sTail]

/-- Settles O42: the length is counted group by group, and the short last group is a lane of its own that gives no
bits. -/
theorem sStageDropsAShortLastGroup : Obligations.SStageDropsAShortLastGroup :=
  fun s T => ⟨length_applySBlock s T, (applySBlock_sFull s T).symm⟩

/-! ### One table undoes the other -/

theorem ofNat_b2n_n2b (v : Nibble) : BitVec.ofNat 4 (b2n (n2b v.toNat 4)) = v := by
  rw [b2n_n2b_mod, Nat.mod_eq_of_lt v.isLt, BitVec.ofNat_toNat, BitVec.setWidth_eq]

theorem n2b_ofNat_b2n {g : Bits} (hg : g.length = 4) : n2b (BitVec.ofNat 4 (b2n g)).toNat 4 = g := by
  rw [BitVec.toNat_ofNat, n2b_mod, ← hg, n2b_b2n_length]

/-- A table whose lookup undoes another's undoes its stage on the full groups (R87, R88). -/
theorem applySBlock_leftInverse {E D : STable} (h : Function.LeftInverse (romRead D) (romRead E)) (s : Bits) :
    applySBlock (applySBlock s E) D = sFull s := by
  induction s using sGroups_induction with
  | short s hs => rw [applySBlock_short s E hs, sFull_short s hs, applySBlock_short [] D (by decide)]
  | group g rest hg ih =>
    rw [applySBlock_group g rest E hg, applySBlock_group _ _ D (length_n2b _ 4), ih, sFull_group g rest hg,
      ofNat_b2n_n2b, h, n2b_ofNat_b2n hg]

/-- Settles O44: inverse tables undo each other both ways (R15), so the stage does. -/
theorem sStageInverse : Obligations.SStageInverse := by
  intro T s hleft
  obtain ⟨hright, -⟩ := inverseTablesAreTwoSided T hleft
  exact ⟨applySBlock_leftInverse hleft s, applySBlock_leftInverse hright s⟩

end Sys2Proof.Machine

/-! PROOFS. The statements on spec 41_pblock.md: how a group meets the mask (R101), and the laws of the P stage (R104,
R105, R107, R108). The stage's laws rest on one: it XORs its sequence with a pad of the length and the mask (R108). -/

namespace Sys2Proof.Machine

/-! ### The XOR of two sequences -/

theorem length_xorBits {s t : Bits} (h : s.length = t.length) : (xorBits s t).length = s.length := by
  rw [xorBits, List.length_zipWith, h, Nat.min_self]

theorem xorBits_append {a b : Bits} (h : a.length = b.length) (c d : Bits) :
    xorBits (a ++ c) (b ++ d) = xorBits a b ++ xorBits c d :=
  List.zipWith_append h

theorem xorBits_assoc (s t u : Bits) : xorBits (xorBits s t) u = xorBits s (xorBits t u) := by
  induction s generalizing t u with
  | nil => rfl
  | cons a s ih =>
    cases t with
    | nil => rfl
    | cons b t =>
      cases u with
      | nil => rfl
      | cons c u => exact congrArg₂ List.cons (Bool.xor_assoc a b c) (ih t u)

theorem xorBits_cancel_right {s t : Bits} (h : s.length = t.length) : xorBits (xorBits s t) t = s := by
  induction s generalizing t with
  | nil => rfl
  | cons a s ih =>
    cases t with
    | nil => cases h
    | cons b t =>
      have hbit : (a ^^ b ^^ b) = a := by rw [Bool.xor_assoc, Bool.xor_self, Bool.xor_false]
      exact congrArg₂ List.cons hbit (ih (Nat.succ.inj h))

/-! ### The mask and a group -/

theorem keyMask_toNat (key : Nat) : (keyMask key).toNat = key % 256 := by
  rw [keyMask, BitVec.toNat_ofNat, Nat.mod_mod]

theorem keyMask_xor (k₁ k₂ : Nat) : keyMask (k₁ ^^^ k₂) = keyMask k₁ ^^^ keyMask k₂ := by
  apply BitVec.eq_of_toNat_eq
  rw [BitVec.toNat_xor, keyMask_toNat, keyMask_toNat, keyMask_toNat]
  exact Nat.xor_mod_two_pow (n := 8)

/-- A group is XORed with the low bits of the mask, as many as the group has (R101, R103). -/
theorem pmixGroup_eq_xorBits (g : Bits) (m : Octet) : pmixGroup g m = xorBits g (n2b m.toNat g.length) := by
  rw [pmixGroup, n2b_xor, n2b_b2n_length]

/-- Settles O45: the low bits of the mask, as many as the group has, stand in sequence order. -/
theorem maskMeetsAGroupFromItsLowEnd : Obligations.MaskMeetsAGroupFromItsLowEnd := by
  intro g mask i h _
  have hi : i < (pmixGroup g mask).length := (length_pmixGroup g mask).symm ▸ h
  rw [List.getElem?_eq_getElem hi]
  simp only [pmixGroup_eq_xorBits, xorBits, List.getElem_zipWith, getElem_n2b, BitVec.testBit_toNat]

/-! ### The stage is the XOR with a pad -/

/-- What holds of a sequence shorter than a group of 8, and of a group in front of a sequence it holds of, holds of
every sequence (R102). -/
theorem pGroups_induction {P : Bits → Prop} (short : ∀ s : Bits, s.length < 8 → P s)
    (group : ∀ g rest : Bits, g.length = 8 → P rest → P (g ++ rest)) (s : Bits) : P s := by
  by_cases hs : s.length < 8
  · exact short s hs
  · have hfront : (s.take 8).length = 8 := List.length_take_of_le (not_lt.mp hs)
    rw [← List.take_append_drop 8 s]
    exact group _ _ hfront (pGroups_induction short group (s.drop 8))
termination_by s.length
decreasing_by rw [List.length_drop]; omega

theorem length_pad (n : Nat) (m : Octet) : (pad n m).length = n := by
  rw [pad, List.length_map, List.length_range]

/-- The pad of a short group is the low bits of the mask (R103). -/
theorem pad_short {n : Nat} (m : Octet) (h : n < 8) : pad n m = n2b m.toNat n := by
  refine List.map_congr_left fun p hp => ?_
  have hp := List.mem_range.mp hp
  have hindex : groupWidth n (p / 8) - 1 - p % 8 = n - 1 - p := by rw [groupWidth]; omega
  rw [hindex, BitVec.testBit_toNat]

/-- One more group in front meets the whole mask and leaves the rest of the pad as it is. -/
theorem pad_group (n : Nat) (m : Octet) : pad (8 + n) m = n2b m.toNat 8 ++ pad n m := by
  rw [pad, List.range_add, List.map_append, List.map_map]
  congr 1
  · refine List.map_congr_left fun p hp => ?_
    have hp := List.mem_range.mp hp
    have hindex : groupWidth (8 + n) (p / 8) - 1 - p % 8 = 8 - 1 - p := by rw [groupWidth]; omega
    rw [hindex, BitVec.testBit_toNat]
  · refine List.map_congr_left fun p _ => ?_
    have hindex : groupWidth (8 + n) ((8 + p) / 8) - 1 - (8 + p) % 8 = groupWidth n (p / 8) - 1 - p % 8 := by
      rw [groupWidth, groupWidth]; omega
    rw [Function.comp_apply, hindex]

theorem pad_xor (n : Nat) (a b : Octet) : xorBits (pad n a) (pad n b) = pad n (a ^^^ b) := by
  simp [xorBits, pad, List.zipWith_map]

theorem applyPBlock_eq_xorBits_pad (s : Bits) (key : Nat) :
    applyPBlock s key = xorBits s (pad s.length (keyMask key)) := by
  induction s using pGroups_induction with
  | short s hs => rw [applyPBlock_short s key hs.le, pmixGroup_eq_xorBits, pad_short _ hs]
  | group g rest hg ih =>
    rw [applyPBlock_group g rest key hg, ih, pmixGroup_eq_xorBits, hg, List.length_append, hg, pad_group,
      xorBits_append (by rw [hg, length_n2b])]

/-! ### The laws of the stage -/

theorem length_applyPBlock (s : Bits) (key : Nat) : (applyPBlock s key).length = s.length := by
  rw [applyPBlock_eq_xorBits_pad, length_xorBits (length_pad _ _).symm]

/-- Settles O47: the pad is as long as the sequence. -/
theorem pStageKeepsTheLength : Obligations.PStageKeepsTheLength := length_applyPBlock

/-- Settles O46: the length stays, so the second pass XORs with the same pad and cancels the first. -/
theorem pStageIsAnInvolution : Obligations.PStageIsAnInvolution := by
  intro s key
  rw [applyPBlock_eq_xorBits_pad (applyPBlock s key), length_applyPBlock, applyPBlock_eq_xorBits_pad,
    xorBits_cancel_right (length_pad _ _).symm]

theorem applyPBlock_applyPBlock (s : Bits) (k₁ k₂ : Nat) :
    applyPBlock (applyPBlock s k₁) k₂ = applyPBlock s (k₁ ^^^ k₂) := by
  rw [applyPBlock_eq_xorBits_pad (applyPBlock s k₁), length_applyPBlock, applyPBlock_eq_xorBits_pad s k₁, xorBits_assoc,
    pad_xor, ← keyMask_xor, ← applyPBlock_eq_xorBits_pad]

/-- The pad reaches the first of two XORed sequences through the second alone. -/
theorem applyPBlock_xorBits {s t : Bits} (h : s.length = t.length) (key : Nat) :
    applyPBlock (xorBits s t) key = xorBits s (applyPBlock t key) := by
  rw [applyPBlock_eq_xorBits_pad, applyPBlock_eq_xorBits_pad, length_xorBits h, h, xorBits_assoc]

/-- Settles O49: the pad law; two pads XOR to the pad of the XORed masks; and the stage of `t` cancels against itself. -/
theorem pStageXorsAPad : Obligations.PStageXorsAPad := by
  refine ⟨applyPBlock_eq_xorBits_pad, applyPBlock_applyPBlock, fun s t key h => ?_⟩
  rw [applyPBlock_xorBits h, xorBits_cancel_right (h.trans (length_applyPBlock t key).symm)]

/-- A group of eight zeros comes out as the low byte of the key. -/
theorem b2n_applyPBlock_zeros (key : Nat) : b2n (applyPBlock (List.replicate 8 false) key) = key % 256 := by
  have hzero : b2n (List.replicate 8 false) = 0 := by decide
  rw [applyPBlock_short _ key (List.length_replicate).le, pmixGroup, hzero, Nat.zero_xor, List.length_replicate,
    b2n_n2b_mod, keyMask_toNat]
  exact Nat.mod_mod key 256

/-- Settles O48: the stage reads the mask alone, and the group of eight zeros shows it. -/
theorem onlyTheLowKeyByteMatters : Obligations.OnlyTheLowKeyByteMatters := by
  refine fun k₁ k₂ => ⟨fun hall => ?_, fun hmod s => ?_⟩
  · rw [← b2n_applyPBlock_zeros k₁, hall, b2n_applyPBlock_zeros]
  · have hmask : keyMask k₁ = keyMask k₂ := by rw [keyMask, keyMask, hmod]
    rw [applyPBlock, applyPBlock, hmask]

end Sys2Proof.Machine

/-! PROOFS. The statements on spec 42_spn_compose.md: the shapes of `encode` and `decode` (R117, R118), how one undoes the
other (R119 to R121), what a wrong key does (R125), and the round trip on the machine (R120). The last rests on what an
open transaction still outputs, which every BIT shortens by just the bits it emits. -/

namespace Sys2Proof.Machine

/-! ### What an open transaction still outputs -/

/-- What a transaction of `op` with `g` waiting in the S unit and `h` in the P unit outputs yet, when the bits `ys` and
END follow (R143, R144). -/
def owed (rom : Tables) (key : Nat) (op : Op) (g h ys : Bits) : Bits :=
  match op with
  | .ssubf => applySBlock (g ++ ys) rom.enc
  | .ssubi => applySBlock (g ++ ys) rom.dec
  | .pmix => applyPBlock (h ++ ys) key
  | .enc => applyPBlock (h ++ applySBlock (g ++ ys) rom.enc) key
  | .dec => applySBlock (g ++ applyPBlock (h ++ ys) key) rom.dec

theorem owed_empty (rom : Tables) (key : Nat) (op : Op) (ys : Bits) :
    owed rom key op [] [] ys = transform rom op key ys := by
  cases op <;> rfl

theorem pFull_append_pTail (s : Bits) : pFull s ++ pTail s = s := List.take_append_drop _ s

/-- The S stage reads on from the bits its short last group holds back. -/
theorem applySBlock_resume (s ys : Bits) (T : STable) :
    applySBlock (s ++ ys) T = applySBlock s T ++ applySBlock (sTail s ++ ys) T := by
  have haligned : (sFull s).length % 4 = 0 := by rw [length_sFull]; omega
  conv_lhs => rw [← sFull_append_sTail s]
  rw [List.append_assoc, applySBlock_append haligned, applySBlock_sFull]

/-- The P stage reads on from the bits its short last group holds back. -/
theorem applyPBlock_resume (s ys : Bits) (key : Nat) :
    applyPBlock (s ++ ys) key = applyPBlock (pFull s) key ++ applyPBlock (pTail s ++ ys) key := by
  have haligned : (pFull s).length % 8 = 0 := by rw [pFull, List.length_take]; omega
  conv_lhs => rw [← pFull_append_pTail s]
  rw [List.append_assoc, applyPBlock_append haligned]

/-- A fed S unit releases the front of the S stage of all that comes, and goes on with what waits in it then. -/
theorem sFeed_resume (T : STable) (xs : Bits) {g : Bits} {s : State} (hs : SWaiting g s) :
    ∃ g', SWaiting g' (sFeed T xs s).2 ∧ ∀ ys,
      applySBlock (g ++ (xs ++ ys)) T = (sFeed T xs s).1 ++ applySBlock (g' ++ ys) T :=
  ⟨_, sWaiting_sFeed T xs hs, fun ys => by rw [sFeed_eq T xs hs, ← List.append_assoc, applySBlock_resume]⟩

/-- A fed P unit releases the front of the P stage of all that comes, and goes on with what waits in it then. -/
theorem pFeed_resume (xs : Bits) {h : Bits} {s : State} (hp : PWaiting h s) :
    ∃ h', PWaiting h' (pFeed xs s).2 ∧ ∀ ys,
      applyPBlock (h ++ (xs ++ ys)) s.key.toNat = (pFeed xs s).1 ++ applyPBlock (h' ++ ys) s.key.toNat :=
  ⟨_, pWaiting_pFeed xs hp, fun ys => by rw [pFeed_eq xs hp, ← List.append_assoc, applyPBlock_resume]⟩

/-- An accepted BIT emits the front of what the transaction owes, and the rest is what it owes then. -/
theorem pushBit_owed {op : Op} {g h : Bits} {s : State} (b : Bit) (hs : SWaiting g s) (hp : PWaiting h s) :
    ∃ g' h', SWaiting g' (pushBit op b s).2 ∧ PWaiting h' (pushBit op b s).2 ∧ ∀ ys,
      owed s.rom s.key.toNat op g h ([b] ++ ys) = (pushBit op b s).1 ++ owed s.rom s.key.toNat op g' h' ys := by
  cases op with
  | ssubf =>
    obtain ⟨g', hs', hout⟩ := sFeed_resume s.rom.enc [b] hs
    rw [pushBit, ← sFeed_singleton]
    exact ⟨g', h, hs', pWaiting_sFeed _ [b] hp, hout⟩
  | ssubi =>
    obtain ⟨g', hs', hout⟩ := sFeed_resume s.rom.dec [b] hs
    rw [pushBit, ← sFeed_singleton]
    exact ⟨g', h, hs', pWaiting_sFeed _ [b] hp, hout⟩
  | pmix =>
    obtain ⟨h', hp', hout⟩ := pFeed_resume [b] hp
    rw [pushBit, ← pFeed_singleton]
    exact ⟨g, h', sWaiting_pFeed [b] hs, hp', hout⟩
  | enc =>
    obtain ⟨g', hs', hsOut⟩ := sFeed_resume s.rom.enc [b] hs
    obtain ⟨h', hp', hpOut⟩ := pFeed_resume (sFeed s.rom.enc [b] s).1 (pWaiting_sFeed s.rom.enc [b] hp)
    have hkey : (sFeed s.rom.enc [b] s).2.key = s.key := by
      obtain ⟨a, c, hfeed⟩ := sFeed_snd s.rom.enc [b] s
      rw [hfeed, State.setS_key]
    rw [hkey] at hpOut
    rw [pushBit, ← sFeed_singleton]
    exact ⟨g', h', sWaiting_pFeed _ hs', hp', fun ys => by rw [owed, hsOut, hpOut, owed]⟩
  | dec =>
    obtain ⟨h', hp', hpOut⟩ := pFeed_resume [b] hp
    obtain ⟨g', hs', hsOut⟩ := sFeed_resume s.rom.dec (pFeed [b] s).1 (sWaiting_pFeed [b] hs)
    rw [pushBit, ← pFeed_singleton]
    exact ⟨g', h', hs', pWaiting_sFeed _ _ hp', fun ys => by rw [owed, hpOut, hsOut, owed]⟩

/-- An accepted END emits all that the transaction owes. -/
theorem flushUnits_owed {op : Op} {g h : Bits} {s : State} (hs : SWaiting g s) (hp : PWaiting h s) :
    (flushUnits op s).1 = owed s.rom s.key.toNat op g h [] := by
  have hsOut : ∀ T, applySBlock g T = [] := fun T => applySBlock_short g T (Nat.lt_succ_of_le hs.length_le)
  have hpOut : pmixGroup h (keyMask s.key.toNat) = applyPBlock h s.key.toNat :=
    (applyPBlock_short h _ (hp.length_le.trans (by decide))).symm
  cases op with
  | ssubf => rw [owed, List.append_nil, hsOut]; rfl
  | ssubi => rw [owed, List.append_nil, hsOut]; rfl
  | pmix => rw [owed, List.append_nil, flushUnits, pFlush_eq hp, hpOut]
  | enc =>
    have hp' : PWaiting h (sFlush s).2 := pWaiting_setS hp 0#4 0#2
    rw [owed, List.append_nil, hsOut, List.append_nil, flushUnits, pFlush_eq hp']
    exact hpOut
  | dec =>
    rw [owed, List.append_nil, flushUnits, pFlush_eq hp, hpOut, sFeed_eq _ _ (sWaiting_setP hs 0#8 0#3)]

/-! ### Runs and what they output -/

/-- `n` steps lead from `s` to `t`, and their responses carry the bits `q` (R136). -/
def RunsTo (n : Nat) (s : State) (q : Bits) (t : State) : Prop :=
  runFor n s = .next t ∧ ∃ rs, t.sent = s.sent ++ rs ∧ outputOf rs = q

theorem runFor_add {m : Nat} (n : Nat) {s t : State} (h : runFor m s = .next t) : runFor (m + n) s = runFor n t := by
  induction m generalizing s with
  | zero => rw [Host.Outcome.next.inj h, Nat.zero_add]
  | succ m ih =>
    cases hstep : step s with
    | next u =>
      rw [runFor_succ m hstep] at h
      rw [Nat.succ_add, runFor_succ _ hstep, ih h]
    | fault r => simp [runFor, hstep] at h
    | refused r => simp [runFor, hstep] at h

theorem RunsTo.trans {m n : Nat} {s t u : State} {q r : Bits} (h₁ : RunsTo m s q t) (h₂ : RunsTo n t r u) :
    RunsTo (m + n) s (q ++ r) u := by
  obtain ⟨hrun₁, rs₁, hsent₁, rfl⟩ := h₁
  obtain ⟨hrun₂, rs₂, hsent₂, rfl⟩ := h₂
  exact ⟨(runFor_add n hrun₁).trans hrun₂, rs₁ ++ rs₂, by rw [hsent₂, hsent₁, List.append_assoc],
    List.flatMap_append⟩

/-- One step that answers one response. -/
theorem runsTo_one {s t : State} {r : Response} (hstep : step s = .next t) (hsent : t.sent = s.sent ++ [r]) :
    RunsTo 1 s r.bits t :=
  ⟨runFor_succ 0 hstep, [r], hsent, List.append_nil _⟩

/-- The step of a queued command is the rule of that command. -/
theorem step_of_queued {s : State} {c : HostCommand} {rest : List Cycle} (h : s.pending = c.cycle :: rest) :
    step s = exec c.instr s.atCommand := by
  have hcycle : s.hostCycle = c.cycle := by rw [State.hostCycle, h]; rfl
  exact step_of_legal (by rw [hcycle]; rfl) (by rw [hcycle]; rfl) (by rw [hcycle]; exact decode_encode _)

theorem atCommand_pending {s : State} {c : Cycle} {rest : List Cycle} (h : s.pending = c :: rest) :
    s.atCommand.pending = rest := congrArg List.tail h

/-- A transaction of `op` is open, with `g` waiting in the S unit and `h` in the P unit. -/
structure OpenWith (op : Op) (g h : Bits) (s : State) : Prop where
  busy : s.busy = true
  op : s.op = opCode op
  sWaiting : SWaiting g s
  pWaiting : PWaiting h s

theorem OpenWith.atCommand {op : Op} {g h : Bits} {s : State} (ho : OpenWith op g h s) : OpenWith op g h s.atCommand :=
  ⟨ho.busy, ho.op, ⟨ho.sWaiting.count, ho.sWaiting.value⟩, ⟨ho.pWaiting.count, ho.pWaiting.value⟩⟩

/-! ### The commands of a transaction -/

theorem exec_start_of_idle {s : State} (hb : s.busy = false) (op : Op) :
    exec op.start s = .next ((s.openTransaction (opCode op) s.keyIn).respond [] false) :=
  (exec_start op s).trans (startCommon_of_idle hb op)

theorem exec_bit_of_open {op : Op} {g h : Bits} {s : State} (ho : OpenWith op g h s) (b : Bit) :
    exec (.bit b) s = .next ((pushBit op b s).2.respond (pushBit op b s).1 false) := by
  simp [exec, execBit, dataAccepted_eq, ho.busy, ho.op]

theorem exec_endCmd_of_open {op : Op} {g h : Bits} {s : State} (ho : OpenWith op g h s) :
    exec .endCmd s = .next ((flushUnits op s).2.closeTransaction.respond (flushUnits op s).1 true) := by
  simp [exec, execEndCmd, dataAccepted_eq, ho.busy, ho.op]

/-- An accepted START opens a transaction with empty units, under the key of its cycle (R137). -/
theorem runsTo_start {s : State} {op : Op} {key : KeyWord} {rest : List Cycle} (hb : s.busy = false)
    (hpending : s.pending = (HostCommand.start op key).cycle :: rest) :
    ∃ t, RunsTo 1 s [] t ∧ OpenWith op [] [] t ∧ t.key = key ∧ t.rom = s.rom ∧ t.pending = rest := by
  have hkey : s.atCommand.keyIn = key := by rw [atCommand_keyIn, State.hostCycle, hpending]; rfl
  have hstep := (step_of_queued hpending).trans (exec_start_of_idle (s := s.atCommand) hb op)
  exact ⟨_, runsTo_one (r := ⟨[], false⟩) hstep rfl, ⟨rfl, rfl, ⟨rfl, rfl⟩, ⟨rfl, rfl⟩⟩, hkey, rfl,
    atCommand_pending hpending⟩

/-- The BITs and the END of an open transaction output what it owes and leave the core idle (R143, R144). -/
theorem runsTo_bits_finish {op : Op} {g h : Bits} (ys : Bits) {s : State} {rest : List Cycle} (ho : OpenWith op g h s)
    (hpending : s.pending = (ys.map HostCommand.bit ++ [HostCommand.finish]).map HostCommand.cycle ++ rest) :
    ∃ t, RunsTo (ys.length + 1) s (owed s.rom s.key.toNat op g h ys) t ∧
      t.busy = false ∧ t.rom = s.rom ∧ t.pending = rest := by
  induction ys generalizing g h s with
  | nil =>
    have ho' := ho.atCommand
    have hstep := (step_of_queued hpending).trans (exec_endCmd_of_open ho')
    obtain ⟨a, c, p, n, hflush⟩ := flushUnits_snd op s.atCommand
    have hrun := runsTo_one (r := ⟨(flushUnits op s.atCommand).1, true⟩) hstep (by rw [hflush]; rfl)
    rw [flushUnits_owed ho'.sWaiting ho'.pWaiting] at hrun
    refine ⟨_, hrun, rfl, ?_, ?_⟩
    · rw [hflush]; rfl
    · rw [hflush]; exact atCommand_pending hpending
  | cons b ys ih =>
    have ho' := ho.atCommand
    have hstep := (step_of_queued hpending).trans (exec_bit_of_open ho' b)
    obtain ⟨a, c, p, n, hpush⟩ := pushBit_snd op b s.atCommand
    obtain ⟨g', h', hs', hp', howed⟩ := pushBit_owed (op := op) b ho'.sWaiting ho'.pWaiting
    rw [hpush] at hstep hs' hp'
    obtain ⟨t, hrun, hidle, hrom, hrest⟩ := ih
      (s := ((s.atCommand.setS a c).setP p n).respond (pushBit op b s.atCommand).1 false)
      ⟨ho'.busy, ho'.op, ⟨hs'.count, hs'.value⟩, ⟨hp'.count, hp'.value⟩⟩ (atCommand_pending hpending)
    have hrun' := (runsTo_one (r := ⟨(pushBit op b s.atCommand).1, false⟩) hstep rfl).trans hrun
    rw [Nat.add_comm] at hrun'
    exact ⟨t, (howed ys).symm ▸ hrun', hidle, hrom, hrest⟩

/-- R145 for the commands of a transaction one after the other: from an idle state they output what the transaction
computes, and leave the core idle. -/
theorem runsTo_transaction (tr : Transaction) {s : State} {rest : List Cycle} (hb : s.busy = false)
    (hpending : s.pending = tr.commands.map HostCommand.cycle ++ rest) :
    ∃ t, RunsTo (tr.bits.length + 2) s (tr.result s.rom) t ∧
      t.busy = false ∧ t.rom = s.rom ∧ t.pending = rest := by
  obtain ⟨u, hrun, hopen, hkey, hrom, hrest⟩ := runsTo_start hb hpending
  obtain ⟨t, hrun', hidle, hrom', hrest'⟩ := runsTo_bits_finish tr.bits hopen hrest
  rw [owed_empty, hkey, hrom] at hrun'
  have hall := hrun.trans hrun'
  rw [List.nil_append, Nat.add_comm] at hall
  exact ⟨t, hall, hidle, hrom'.trans hrom, hrest'⟩

/-! ### The length of `encode` and `decode`, and the key they read -/

theorem length_spnEncode (rom : Tables) (s : Bits) (key : Nat) : (spnEncode rom s key).length = 4 * (s.length / 4) := by
  rw [spnEncode, length_applyPBlock, length_applySBlock, Nat.mul_comm]

theorem length_spnDecode (rom : Tables) (s : Bits) (key : Nat) : (spnDecode rom s key).length = 4 * (s.length / 4) := by
  rw [spnDecode, length_applySBlock, length_applyPBlock, Nat.mul_comm]

/-- R126: `decode` reads the low byte of its key alone. -/
theorem spnDecode_congr_key (rom : Tables) (s : Bits) {k₁ k₂ : Nat} (h : k₁ % 256 = k₂ % 256) :
    spnDecode rom s k₁ = spnDecode rom s k₂ := by
  rw [spnDecode, spnDecode, (onlyTheLowKeyByteMatters k₁ k₂).mpr h s]

/-! ### One undoes the other -/

theorem spnDecode_spnEncode {rom : Tables} (hinv : TablesInverse rom) (s : Bits) (key : Nat) :
    spnDecode rom (spnEncode rom s key) key = sFull s := by
  rw [spnDecode, spnEncode, pStageIsAnInvolution, applySBlock_leftInverse hinv]

theorem sFull_of_aligned {s : Bits} (h : s.length % 4 = 0) : sFull s = s :=
  List.take_of_length_le (Nat.mul_div_cancel' (Nat.dvd_of_mod_eq_zero h)).ge

/-- Settles O52: the P stage cancels itself, and then the inverse tables leave the full groups. -/
theorem decodeUndoesEncode : Obligations.DecodeUndoesEncode := by
  refine fun rom s key hinv => ⟨spnDecode_spnEncode hinv s key, fun h8 => ?_⟩
  rw [spnDecode_spnEncode hinv, sFull_of_aligned (by omega)]

/-- Settles O53: for an aligned length the S stages cancel without a cut, and then the P stages. The spec's 14 bits of
R121 show that the cut of another length moves the last nibble to another nibble of the mask. -/
theorem encodeUndoesDecodeWhenAligned : Obligations.EncodeUndoesDecodeWhenAligned := by
  refine ⟨fun rom s key hinv h4 => ?_, tblEx,
    [false, true, false, false, true, false, false, false, true, false, true, true, false, true], 998,
    by decide, by decide⟩
  obtain ⟨hright, -⟩ := inverseTablesAreTwoSided rom hinv
  rw [spnEncode, spnDecode, applySBlock_leftInverse hright, sFull_of_aligned (by rw [length_applyPBlock, h4]),
    pStageIsAnInvolution]

/-- Key words with one low byte are equal mod 256. -/
theorem mod_256_eq_of_extractLsb'_eq {k₁ k₂ : KeyWord} (h : k₁.extractLsb' 0 8 = k₂.extractLsb' 0 8) :
    k₁.toNat % 256 = k₂.toNat % 256 := by
  simpa using congrArg BitVec.toNat h

/-- Settles O39: each transaction outputs its function (R145), `decode` reads the low byte of its key alone (R126), and it
undoes `encode` (R120). -/
theorem machineRoundTrip : Obligations.MachineRoundTrip := by
  intro bits k₁ k₂ rest s hinv hb hkey hpending
  rw [List.map_append, List.append_assoc] at hpending
  obtain ⟨t₁, ⟨hrun₁, rs₁, hsent₁, hout₁⟩, hb₁, hrom₁, hrest₁⟩ := runsTo_transaction _ hb hpending
  obtain ⟨t₂, ⟨hrun₂, rs₂, hsent₂, hout₂⟩, -, -, hrest₂⟩ := runsTo_transaction _ hb₁ hrest₁
  rw [length_spnEncode] at hrun₂
  refine ⟨t₂, rs₁, rs₂, (runFor_add _ hrun₁).trans hrun₂, by rw [hsent₂, hsent₁], hout₁, ?_, hrest₂⟩
  calc outputOf rs₂
      = spnDecode s.rom (spnEncode s.rom bits k₁.toNat) k₂.toNat := by rw [hout₂, hrom₁]; rfl
    _ = spnDecode s.rom (spnEncode s.rom bits k₁.toNat) k₁.toNat :=
        spnDecode_congr_key _ _ (mod_256_eq_of_extractLsb'_eq hkey).symm
    _ = bits.take (4 * (bits.length / 4)) := spnDecode_spnEncode hinv bits _

/-! ### A byte and a nibble under the mask -/

theorem n2b_add (x v w : Nat) : n2b x (v + w) = n2b (x / 2 ^ w) v ++ n2b x w := by
  induction w generalizing x with
  | zero => rw [Nat.pow_zero, Nat.div_one, n2b_zero, List.append_nil, Nat.add_zero]
  | succ w ih =>
    rw [← Nat.add_assoc, n2b_succ, ih, Nat.div_div_eq_div_mul, ← Nat.pow_succ', n2b_succ x w, List.append_assoc]

/-- The low four bits of the mask, in sequence order. -/
theorem n2b_low_nibble (m : Octet) : n2b m.toNat 4 = n2b (m.extractLsb' 0 4).toNat 4 := by
  rw [BitVec.extractLsb'_toNat, Nat.shiftRight_zero, n2b_mod]

/-- The mask in sequence order is its high nibble and then its low nibble. -/
theorem n2b_mask_nibbles (m : Octet) :
    n2b m.toNat 8 = n2b (m.extractLsb' 4 4).toNat 4 ++ n2b (m.extractLsb' 0 4).toNat 4 := by
  rw [← n2b_low_nibble, BitVec.extractLsb'_toNat, Nat.shiftRight_eq_div_pow, n2b_mod]
  exact n2b_add m.toNat 4 4

theorem n2b_nibble_xor (v w : Nibble) : n2b (v ^^^ w).toNat 4 = xorBits (n2b v.toNat 4) (n2b w.toNat 4) := by
  rw [BitVec.toNat_xor, n2b_xor]

theorem pmixGroup_nibble (v : Nibble) (m : Octet) :
    pmixGroup (n2b v.toNat 4) m = n2b (v ^^^ m.extractLsb' 0 4).toNat 4 := by
  rw [pmixGroup_eq_xorBits, length_n2b, n2b_low_nibble, n2b_nibble_xor]

theorem pmixGroup_byte (hi lo : Nibble) (m : Octet) :
    pmixGroup (n2b hi.toNat 4 ++ n2b lo.toNat 4) m =
      n2b (hi ^^^ m.extractLsb' 4 4).toNat 4 ++ n2b (lo ^^^ m.extractLsb' 0 4).toNat 4 := by
  rw [pmixGroup_eq_xorBits, List.length_append, length_n2b, length_n2b, n2b_mask_nibbles,
    xorBits_append (by rw [length_n2b, length_n2b]), ← n2b_nibble_xor, ← n2b_nibble_xor]

theorem applySBlock_nibble (v : Nibble) (rest : Bits) (T : STable) :
    applySBlock (n2b v.toNat 4 ++ rest) T = n2b (romRead T v).toNat 4 ++ applySBlock rest T := by
  rw [applySBlock_group _ _ _ (length_n2b _ 4), ofNat_b2n_n2b]

theorem applyPBlock_byte (hi lo : Nibble) (rest : Bits) (key : Nat) :
    applyPBlock (n2b hi.toNat 4 ++ n2b lo.toNat 4 ++ rest) key =
      n2b (hi ^^^ (keyMask key).extractLsb' 4 4).toNat 4 ++ n2b (lo ^^^ (keyMask key).extractLsb' 0 4).toNat 4 ++
        applyPBlock rest key := by
  rw [applyPBlock_group _ _ _ (by rw [List.length_append, length_n2b, length_n2b]), pmixGroup_byte]

/-! ### The shapes -/

/-- Settles O50: the S stage makes two nibbles of the byte, which are one group of the P stage; a single nibble is a group
of its own. -/
theorem shapeOfEncode : Obligations.ShapeOfEncode := by
  refine fun rom s key => ⟨length_spnEncode rom s key, fun hi lo => ?_, fun v => ?_⟩
  · rw [spnEncode, List.append_assoc, applySBlock_nibble, applySBlock_nibble, ← List.append_assoc, applyPBlock_byte,
      ← spnEncode]
  · have hs : applySBlock (n2b v.toNat 4) rom.enc = n2b (romRead rom.enc v).toNat 4 := by
      simpa [applySBlock_short] using applySBlock_nibble v [] rom.enc
    rw [spnEncode, hs, applyPBlock_short _ _ (by rw [length_n2b]; decide), pmixGroup_nibble]

/-- The S stage reads at most one group of a sequence shorter than 8. -/
theorem applySBlock_take_four {g : Bits} (h : g.length < 8) (T : STable) :
    applySBlock (g.take 4) T = applySBlock g T := by
  rcases Nat.lt_or_ge g.length 4 with h4 | h4
  · rw [List.take_of_length_le h4.le]
  · have hone : 4 * (g.length / 4) = 4 := by omega
    rw [← applySBlock_sFull g, sFull, hone]

/-- Settles O51: the byte is one group of the P stage, whose two nibbles are groups of the S stage; a sequence shorter than
8 is one group of the P stage, of which the S stage reads 4 bits at most. -/
theorem shapeOfDecode : Obligations.ShapeOfDecode := by
  refine fun rom s key => ⟨length_spnDecode rom s key, fun hi lo => ?_, fun h8 => ?_⟩
  · rw [spnDecode, applyPBlock_byte, List.append_assoc, applySBlock_nibble, applySBlock_nibble, ← List.append_assoc,
      ← spnDecode]
  · rw [spnDecode, applyPBlock_short s key h8.le, applySBlock_take_four (by rwa [length_pmixGroup])]

/-! ### A wrong key -/

theorem n2b_eq_zeros_iff {x w : Nat} : n2b x w = List.replicate w false ↔ x % 2 ^ w = 0 := by
  have hzeros : n2b 0 w = List.replicate w false := by simp [n2b]
  constructor
  · intro h
    rw [← b2n_n2b_mod, h, ← hzeros, b2n_n2b_mod, Nat.zero_mod]
  · intro h
    rw [← n2b_mod, h, hzeros]

theorem xorBits_eq_left_iff {s t : Bits} (h : s.length = t.length) :
    xorBits s t = s ↔ t = List.replicate t.length false := by
  induction s generalizing t with
  | nil => simp [xorBits, List.length_eq_zero_iff.mp h.symm]
  | cons a s ih =>
    cases t with
    | nil => cases h
    | cons b t =>
      have htail := ih (Nat.succ.inj h)
      have hbit : (a ^^ b) = a ↔ b = false := by cases a <;> cases b <;> decide
      calc xorBits (a :: s) (b :: t) = a :: s
          ↔ (a ^^ b) = a ∧ xorBits s t = s := List.cons_eq_cons
        _ ↔ b = false ∧ t = List.replicate t.length false := and_congr hbit htail
        _ ↔ b :: t = List.replicate (t.length + 1) false := List.cons_eq_cons.symm

/-- The pad of whole nibbles is zero when there are none, when the mask is zero, and when the one nibble there is meets a
low nibble of zero (R125). -/
theorem pad_eq_zeros_iff {n : Nat} (hn : n % 4 = 0) (key : Nat) :
    pad n (keyMask key) = List.replicate n false ↔ n = 0 ∨ key % 256 = 0 ∨ (n = 4 ∧ key % 16 = 0) := by
  rcases Nat.lt_or_ge n 8 with h8 | h8
  · rw [pad_short _ h8, n2b_eq_zeros_iff, keyMask_toNat]
    obtain rfl | rfl : n = 0 ∨ n = 4 := by omega
    · simp [Nat.mod_one]
    · omega
  · obtain ⟨n, rfl⟩ := Nat.exists_eq_add_of_le h8
    refine ⟨fun h => ?_, ?_⟩
    · rw [pad_group, List.replicate_add] at h
      have hfront := n2b_eq_zeros_iff.mp (List.append_inj_left h (by rw [length_n2b, List.length_replicate]))
      rw [keyMask_toNat] at hfront
      omega
    · rintro (h0 | h256 | ⟨h4, -⟩)
      · omega
      · have hmask : keyMask key = 0#8 := by rw [keyMask, h256]
        simp [pad, hmask]
      · omega

theorem spnDecode_spnEncode_wrong_key (rom : Tables) (s : Bits) (k₁ k₂ : Nat) :
    spnDecode rom (spnEncode rom s k₁) k₂ =
      applySBlock (xorBits (applySBlock s rom.enc) (pad (4 * (s.length / 4)) (keyMask (k₁ ^^^ k₂)))) rom.dec := by
  rw [spnDecode, spnEncode, applyPBlock_applyPBlock, applyPBlock_eq_xorBits_pad, length_applySBlock, Nat.mul_comm]

/-- A stage whose table can be undone tells sequences of whole groups apart (R87). -/
theorem applySBlock_eq_iff_of_aligned {E D : STable} (hinv : Function.LeftInverse (romRead E) (romRead D)) {a b : Bits}
    (ha : a.length % 4 = 0) (hb : b.length % 4 = 0) : applySBlock a D = applySBlock b D ↔ a = b := by
  refine ⟨fun h => ?_, congrArg (applySBlock · D)⟩
  rw [← sFull_of_aligned ha, ← sFull_of_aligned hb, ← applySBlock_leftInverse hinv, h, applySBlock_leftInverse hinv]

/-- Settles O54: the two P stages are one, with the keys' XOR (R108); and the cut sequence comes back just if the pad of
that XOR changes no bit of what the S stage of the decode table reads. -/
theorem wrongKeyExactly : Obligations.WrongKeyExactly := by
  intro rom s k₁ k₂ hinv
  refine ⟨spnDecode_spnEncode_wrong_key rom s k₁ k₂, ?_⟩
  obtain ⟨hright, -⟩ := inverseTablesAreTwoSided rom hinv
  have hm : (applySBlock s rom.enc).length = 4 * (s.length / 4) := by rw [length_applySBlock, Nat.mul_comm]
  have hpad := hm.trans (length_pad (4 * (s.length / 4)) (keyMask (k₁ ^^^ k₂))).symm
  have h4 : 4 * (s.length / 4) % 4 = 0 := Nat.mul_mod_right 4 _
  have hcut : s.take (4 * (s.length / 4)) = applySBlock (applySBlock s rom.enc) rom.dec :=
    (applySBlock_leftInverse hinv s).symm
  rw [spnDecode_spnEncode_wrong_key, hcut,
    applySBlock_eq_iff_of_aligned hright (by rw [length_xorBits hpad, hm, h4]) (by rw [hm, h4]),
    xorBits_eq_left_iff hpad, length_pad, pad_eq_zeros_iff h4]

end Sys2Proof.Machine

/-! PROOFS. The statements on spec 43_stream_commands.md: what a command does and what it leaves alone (R135 to R144,
R147, R148), the words of a list of commands (R52), and what transactions and streams of them compute (R145, R146). -/

namespace Sys2Proof.Machine

/-! ### What a command leaves alone, and when `BUSY` and `done` change -/

@[simp] theorem nop_ne_start (op : Op) : Instr.nop ≠ op.start := by cases op <;> decide

@[simp] theorem bit_ne_start (b : Bit) (op : Op) : Instr.bit b ≠ op.start := by cases op <;> exact nofun

@[simp] theorem endCmd_ne_start (op : Op) : Instr.endCmd ≠ op.start := by cases op <;> decide

@[simp] theorem start_ne_endCmd (op : Op) : op.start ≠ Instr.endCmd := (endCmd_ne_start op).symm

theorem exec_next_frame {i : Instr} {s t : State} (h : exec i s = .next t) :
    t.illop = s.illop ∧ t.pending = s.pending ∧ t.keyIn = s.keyIn ∧ t.sent = s.sent ++ [t.resp] := by
  rcases exec_next_cases h with ⟨-, rfl⟩ | ⟨-, rfl⟩ | ⟨op, -, -, rfl⟩ | ⟨b, op, -, -, -, rfl⟩ | ⟨op, -, -, -, rfl⟩
  · exact ⟨rfl, rfl, rfl, rfl⟩
  · exact ⟨rfl, rfl, rfl, rfl⟩
  · exact ⟨rfl, rfl, rfl, rfl⟩
  · obtain ⟨a, c, p, n, hpush⟩ := pushBit_snd op b s
    simp [hpush]
  · obtain ⟨a, c, p, n, hflush⟩ := flushUnits_snd op s
    simp [hflush]

/-- After a START the core is busy and after an END it is idle, accepted or not; no other command touches `BUSY`
(R148). -/
theorem exec_next_busy_iff {i : Instr} {s t : State} (h : exec i s = .next t) :
    t.busy = true ↔ (∃ op, i = Op.start op) ∨ (s.busy = true ∧ i ≠ .endCmd) := by
  rcases exec_next_cases h with
    ⟨rfl, rfl⟩ | ⟨hseq, rfl⟩ | ⟨op, rfl, -, rfl⟩ | ⟨b, op, rfl, hb, -, rfl⟩ | ⟨op, rfl, -, -, rfl⟩
  · simp
  · rcases hseq with ⟨hstart, hb⟩ | ⟨⟨b, rfl⟩ | rfl, hb⟩
    · simp [hstart, hb]
    · simp [hb]
    · simp [hb]
  · simp
  · obtain ⟨a, c, p, n, hpush⟩ := pushBit_snd op b s
    simp [hpush, hb]
  · simp

/-- `done` is answered by an accepted END and nothing else (R69, R144). -/
theorem exec_next_done_iff {i : Instr} {s t : State} (h : exec i s = .next t) :
    t.resp.done = true ↔ i = .endCmd ∧ s.busy = true := by
  rcases exec_next_cases h with
    ⟨rfl, rfl⟩ | ⟨hseq, rfl⟩ | ⟨op, rfl, -, rfl⟩ | ⟨b, op, rfl, -, -, rfl⟩ | ⟨op, rfl, hb, -, rfl⟩
  · simp
  · rcases hseq with ⟨⟨op, rfl⟩, -⟩ | ⟨-, hb⟩
    · simp
    · simp [hb]
  · simp
  · simp
  · simp [hb]

/-- Settles O23, from what each field of the next state is. -/
theorem commandsLeaveTheRestAlone : Obligations.CommandsLeaveTheRestAlone := by
  intro i s t h
  obtain ⟨hillop, hpending, hkeyIn, hsent⟩ := exec_next_frame h
  refine ⟨exec_next_rom h, hillop, hpending, hkeyIn, hsent, fun hchange => ?_, fun hchange => ?_, exec_next_done_iff h⟩
  · rcases exec_next_op_key h with ⟨hop, hkey⟩ | ⟨op, hi, hb, -, -⟩
    · simp [hop, hkey] at hchange
    · exact ⟨⟨op, hi⟩, hb⟩
  · have hbusy := exec_next_busy_iff h
    cases hb : s.busy with
    | false =>
      have ht : t.busy = true := by simpa [hb] using hchange
      exact .inl ⟨by simpa [hb] using hbusy.mp ht, rfl⟩
    | true =>
      have ht : ¬t.busy = true := by simpa [hb] using hchange
      exact .inr ⟨by_contra fun hne => ht (hbusy.mpr (.inr ⟨hb, hne⟩)), rfl⟩

/-- Settles O29: of the cases of the step only a reset and a command touch `BUSY`. -/
theorem busyChangesOnlyByStartEndAndReset : Obligations.BusyChangesOnlyByStartEndAndReset := by
  intro s t hstep
  rcases step_next_cases hstep with
    ⟨hr, rfl⟩ | ⟨hr, hv, rfl⟩ | ⟨hr, hv, ⟨e, hd⟩, rfl⟩ | ⟨hr, hv, i, hd, hexec⟩
  · simp [hr]
  · simp [hr, hv]
  · simp [hr, hd]
  · have hbusy := exec_next_busy_iff hexec
    rw [atCommand_busy] at hbusy
    refine ⟨by simp [hr], fun _ => ⟨fun hb => ?_, fun hb => ?_⟩⟩
    · simp [hbusy, hb, hv, hd]
    · rw [← Bool.not_eq_true, hbusy]
      simpa [hb, hv, hd] using fun hi : i = .endCmd => hi ▸ endCmd_ne_start

/-! ### The step (R135) -/

/-- Settles O6: the state in which the command runs is the one the step hands to it. -/
theorem stepRunsTheDecodedCommand : Obligations.StepRunsTheDecodedCommand := by
  rintro s cw i ⟨hr, hv, rfl⟩ hd
  exact step_of_legal hr hv hd

/-- Settles O7: the cycle is consumed and the port shows no response. -/
theorem cycleWithoutCommandChangesNothing : Obligations.CycleWithoutCommandChangesNothing :=
  fun _ hr hv => ⟨_, step_of_no_command hr hv, rfl, rfl⟩

/-- `opCode` is the code in `cw[2:0]` of the START's word (R63). -/
theorem opField_encode_start (op : Op) : opField (encode op.start) = opCode op := by cases op <;> rfl

/-- Settles O10: an idle core accepts the START, and what it latches is the code in the word. -/
theorem acceptedStartOpensATransaction : Obligations.AcceptedStartOpensATransaction := by
  intro op s hb
  rw [opField_encode_start]
  exact exec_start_of_idle hb op

/-- Settles O13: the decoder looks at `cw[7:6]` first, and the rule of `NOP` only answers. -/
theorem nopChangesNoRegister : Obligations.NopChangesNoRegister :=
  ⟨fun _ hkind => if_pos hkind, fun _ => rfl⟩

/-! ### BIT and END in a busy state -/

theorem exec_bit_of_busy {op : Op} {s : State} (hb : s.busy = true) (ho : s.op = opCode op) (b : Bit) :
    exec (.bit b) s = .next ((pushBit op b s).2.respond (pushBit op b s).1 false) := by
  simp [exec, execBit, dataAccepted_eq, hb, ho]

theorem exec_endCmd_of_busy {op : Op} {s : State} (hb : s.busy = true) (ho : s.op = opCode op) :
    exec .endCmd s = .next ((flushUnits op s).2.closeTransaction.respond (flushUnits op s).1 true) := by
  simp [exec, execEndCmd, dataAccepted_eq, hb, ho]

/-- Settles O22: with a code of an operation the rule runs; the other codes stop it (log entry 7). -/
theorem bitAndEndCompleteWhileBusy : Obligations.BitAndEndCompleteWhileBusy := by
  intro i s hi hb
  refine ⟨fun ⟨op, ho⟩ => ?_, fun hres => ?_⟩
  · rcases hi with ⟨b, rfl⟩ | rfl
    · exact ⟨_, exec_bit_of_busy hb ho b⟩
    · exact ⟨_, exec_endCmd_of_busy hb ho⟩
  · have hnone : opOfCode s.op = none := by rcases hres with h | h | h <;> rw [h] <;> rfl
    rcases hi with ⟨b, rfl⟩ | rfl
    · simp [exec, execBit, dataAccepted_eq, hb, hnone]
    · simp [exec, execEndCmd, dataAccepted_eq, hb, hnone]

/-! ### How many bits a step emits (R147) -/

/-- A fed S unit releases a group of 4 for every 4 bits, counted on from what `SCNT` says. -/
theorem length_sFeed (T : STable) (xs : Bits) (s : State) :
    (sFeed T xs s).1.length = 4 * ((s.scnt.toNat + xs.length) / 4) := by
  induction xs generalizing s with
  | nil =>
    have := s.scnt.isLt
    simp only [sFeed, List.length_nil]
    omega
  | cons x xs ih =>
    have := s.scnt.isLt
    rw [sFeed, List.length_append, ih, sPush, List.length_cons]
    split_ifs with h3
    · simp [h3]
      omega
    · have hn : (s.scnt + 1#2).toNat = s.scnt.toNat + 1 := by bv_omega
      simp [hn]
      omega

/-- A fed P unit releases a group of 8 for every 8 bits, counted on from what `PCNT` says. -/
theorem length_pFeed (xs : Bits) (s : State) : (pFeed xs s).1.length = 8 * ((s.pcnt.toNat + xs.length) / 8) := by
  induction xs generalizing s with
  | nil =>
    have := s.pcnt.isLt
    simp only [pFeed, List.length_nil]
    omega
  | cons x xs ih =>
    have := s.pcnt.isLt
    rw [pFeed, List.length_append, ih, pPush, List.length_cons]
    split_ifs with h7
    · simp [h7]
      omega
    · have hn : (s.pcnt + 1#3).toNat = s.pcnt.toNat + 1 := by bv_omega
      simp [hn]
      omega

theorem length_pFlush (s : State) : (pFlush s).1.length = s.pcnt.toNat := by
  rw [pFlush]
  split_ifs with h0
  · simp [h0]
  · exact length_n2b _ _

theorem length_pushBit_le (op : Op) (b : Bit) (s : State) : (pushBit op b s).1.length ≤ 8 := by
  have hscnt := s.scnt.isLt
  cases op with
  | ssubf => have := length_sPush s.rom.enc b s; rw [pushBit]; omega
  | ssubi => have := length_sPush s.rom.dec b s; rw [pushBit]; omega
  | pmix => have := length_pPush b s; rw [pushBit]; omega
  | enc =>
    have := length_sPush s.rom.enc b s
    have := (sPush s.rom.enc b s).2.pcnt.isLt
    rw [pushBit, length_pFeed]
    omega
  | dec =>
    have := length_pPush b s
    have := (pPush b s).2.scnt.isLt
    rw [pushBit, length_sFeed]
    omega

theorem length_flushUnits (op : Op) (s : State) :
    (flushUnits op s).1.length = match op with
      | .ssubf => 0
      | .ssubi => 0
      | .pmix => s.pcnt.toNat
      | .enc => s.pcnt.toNat
      | .dec => 4 * ((s.scnt.toNat + s.pcnt.toNat) / 4) := by
  cases op with
  | ssubf => rfl
  | ssubi => rfl
  | pmix => exact length_pFlush s
  | enc => exact length_pFlush _
  | dec => rw [flushUnits, length_sFeed, length_pFlush]; rfl

theorem exec_next_length_le {i : Instr} {s t : State} (h : exec i s = .next t) : t.resp.bits.length ≤ 8 := by
  rcases exec_next_cases h with ⟨-, rfl⟩ | ⟨-, rfl⟩ | ⟨op, -, -, rfl⟩ | ⟨b, op, -, -, -, rfl⟩ | ⟨op, -, -, -, rfl⟩
  · exact Nat.zero_le 8
  · exact Nat.zero_le 8
  · exact Nat.zero_le 8
  · exact length_pushBit_le op b s
  · have hlen := length_flushUnits op s
    have := s.scnt.isLt
    have := s.pcnt.isLt
    rw [State.respond_resp]
    cases op <;> simp only at hlen ⊢ <;> omega

theorem exec_endCmd_next_bits {op : Op} {s t : State} (hb : s.busy = true) (ho : s.op = opCode op)
    (h : exec .endCmd s = .next t) : t.resp.bits = (flushUnits op s).1 := by
  rw [exec_endCmd_of_busy hb ho] at h
  rw [← Host.Outcome.next.inj h, State.respond_resp]

/-- Settles O24: no count lets two P groups or three S groups fill in one step, and under the invariant a flush finds
what R32(e) says. -/
theorem noStepEmitsMoreThanEightBits : Obligations.NoStepEmitsMoreThanEightBits := by
  refine ⟨fun s t hstep => ?_, fun s t hinv hb hexec => ?_⟩
  · rcases step_next_cases hstep with ⟨-, rfl⟩ | ⟨-, -, rfl⟩ | ⟨-, -, -, rfl⟩ | ⟨-, -, i, -, hexec⟩
    · exact Nat.zero_le 8
    · exact Nat.zero_le 8
    · exact Nat.zero_le 8
    · exact exec_next_length_le hexec
  · have hpcnt := s.pcnt.isLt
    refine ⟨?_, fun ho => ?_, ?_⟩
    · rintro (ho | ho) <;> rw [exec_endCmd_next_bits hb ho hexec] <;> rfl
    · rw [exec_endCmd_next_bits hb ho hexec, length_flushUnits]
      exact Nat.le_of_lt_succ hpcnt
    · rintro (ho | ho) <;> rw [exec_endCmd_next_bits hb ho hexec, length_flushUnits]
      · exact hinv.countsFit ho
      · have hscnt : s.scnt.toNat = 0 := hinv.countsFit ho
        simp only [hscnt]
        omega

/-! ### An accepted BIT or END, in the bits that wait (R139 to R144) -/

theorem SWaiting.respond {g : Bits} {s : State} (h : SWaiting g s) (q : Bits) (done : Bool) :
    SWaiting g (s.respond q done) := ⟨h.count, h.value⟩

theorem PWaiting.respond {h : Bits} {s : State} (hp : PWaiting h s) (q : Bits) (done : Bool) :
    PWaiting h (s.respond q done) := ⟨hp.count, hp.value⟩

theorem extractLsb'_key (s : State) : s.key.extractLsb' 0 8 = keyMask s.key.toNat := maskOf_eq_keyMask s

/-- The frame of an accepted BIT (R143). -/
theorem onlyUnitsAndResponse_pushBit (op : Op) (b : Bit) (s : State) (q : Bits) (done : Bool) :
    OnlyUnitsAndResponse s ((pushBit op b s).2.respond q done) := by
  obtain ⟨a, c, p, n, hpush⟩ := pushBit_snd op b s
  rw [hpush]
  rfl

/-- Fewer than two groups of 8: the P stage of the full groups is that of the one group there may be. -/
theorem applyPBlock_pFull {h : Bits} (hlen : h.length < 16) (key : Nat) :
    applyPBlock (pFull h) key = if 8 ≤ h.length then pmixGroup (h.take 8) (keyMask key) else [] := by
  split_ifs with h8
  · have hone : 8 * (h.length / 8) = 8 := by omega
    rw [pFull, hone, applyPBlock_short _ key (List.length_take_le 8 h)]
  · rw [pFull_short h (by omega), applyPBlock_nil]

theorem pTail_eq {h : Bits} (hlen : h.length < 16) : pTail h = if 8 ≤ h.length then h.drop 8 else h := by
  split_ifs with h8
  · have hone : 8 * (h.length / 8) = 8 := by omega
    rw [pTail, hone]
  · exact pTail_short h (by omega)

/-- One more bit makes a full group of 8 just if 7 wait. -/
theorem applyPBlock_pFull_snoc {h : Bits} (hlen : h.length ≤ 7) (b : Bit) (key : Nat) :
    applyPBlock (pFull (h ++ [b])) key = if h.length = 7 then pmixGroup (h ++ [b]) (keyMask key) else [] := by
  have hsnoc : (h ++ [b]).length = h.length + 1 := List.length_append
  rw [applyPBlock_pFull (by omega), List.take_of_length_le (by omega)]
  exact if_congr (by omega) rfl rfl

/-- What one bit pushed into the S unit releases and leaves, under either table (R139). -/
theorem sPush_spec (T : STable) (b : Bit) {g : Bits} {s : State} (h : SWaiting g s) :
    (sPush T b s).1 = applySBlock (g ++ [b]) T ∧ SWaiting (if g.length = 3 then [] else g ++ [b]) (sPush T b s).2 := by
  rw [← sFeed_singleton, ← sTail_snoc g b h.length_le]
  exact ⟨by rw [sFeed_eq T [b] h], sWaiting_sFeed T [b] h⟩

/-- What one bit pushed into the P unit releases and leaves (R141). -/
theorem pPush_spec (b : Bit) {h : Bits} {s : State} (hp : PWaiting h s) :
    (pPush b s).1 = (if h.length = 7 then pmixGroup (h ++ [b]) (s.key.extractLsb' 0 8) else []) ∧
      PWaiting (if h.length = 7 then [] else h ++ [b]) (pPush b s).2 := by
  rw [← pFeed_singleton, ← pTail_snoc h b hp.length_le, extractLsb'_key, ← applyPBlock_pFull_snoc hp.length_le]
  exact ⟨by rw [pFeed_eq [b] hp], pWaiting_pFeed [b] hp⟩

/-- Settles O17: one bit is pushed into the S unit, with the table of the operation. -/
theorem bitUnderSsubFeedsTheSUnit : Obligations.BitUnderSsubFeedsTheSUnit := by
  intro b g s hb hs T hT
  obtain ⟨op, ho, hpush⟩ : ∃ op, s.op = opCode op ∧ pushBit op b s = sPush T b s := by
    rcases hT with ⟨ho, rfl⟩ | ⟨ho, rfl⟩
    · exact ⟨.ssubf, ho, rfl⟩
    · exact ⟨.ssubi, ho, rfl⟩
  obtain ⟨hout, hwait⟩ := sPush_spec T b hs
  obtain ⟨a, c, hset⟩ := sPush_snd T b s
  refine ⟨_, exec_bit_of_busy hb ho b, onlyUnitsAndResponse_pushBit op b s _ _, ?_, ?_, ?_, ?_⟩
  · rw [State.respond_resp, hpush, hout]
  · rw [hpush]
    exact hwait.respond _ _
  · rw [hpush, hset]
    rfl
  · rw [hpush, hset]
    rfl

/-- Settles O18: one bit is pushed into the P unit. -/
theorem bitUnderPmixFeedsThePUnit : Obligations.BitUnderPmixFeedsThePUnit := by
  intro b h s hb ho hp
  obtain ⟨hout, hwait⟩ := pPush_spec b hp
  obtain ⟨p, n, hset⟩ := pPush_snd b s
  refine ⟨_, exec_bit_of_busy (op := .pmix) hb ho b, onlyUnitsAndResponse_pushBit .pmix b s _ _, ?_, hwait.respond _ _,
    ?_, ?_⟩
  · rw [State.respond_resp, pushBit, hout]
  · rw [pushBit, hset]
    rfl
  · rw [pushBit, hset]
    rfl

/-- Settles O19: what the S unit releases is fed to the P unit, which fills one group with it at most. -/
theorem bitUnderEncFeedsSThenP : Obligations.BitUnderEncFeedsSThenP := by
  intro b g h s hb ho hs hp
  obtain ⟨hout, hwait⟩ := sPush_spec s.rom.enc b hs
  obtain ⟨a, c, hset⟩ := sPush_snd s.rom.enc b s
  have hlen : (h ++ applySBlock (g ++ [b]) s.rom.enc).length < 16 := by
    have hq := length_sPush s.rom.enc b s
    have hh := hp.length_le
    rw [← hout, List.length_append]
    omega
  have hp' : PWaiting h (sPush s.rom.enc b s).2 := hset ▸ pWaiting_setS hp a c
  have hkey : (sPush s.rom.enc b s).2.key = s.key := by rw [hset, State.setS_key]
  have hfeed := pFeed_eq (sPush s.rom.enc b s).1 hp'
  have hpwait := pWaiting_pFeed (sPush s.rom.enc b s).1 hp'
  rw [hout] at hpwait hfeed
  rw [pTail_eq hlen] at hpwait
  refine ⟨_, exec_bit_of_busy (op := .enc) hb ho b, onlyUnitsAndResponse_pushBit .enc b s _ _, ?_, ?_, ?_⟩
  · rw [State.respond_resp, pushBit, hout, hfeed, hkey, applyPBlock_pFull hlen, extractLsb'_key]
  · exact (sWaiting_pFeed _ hwait).respond _ _
  · rw [pushBit, hout]
    exact hpwait.respond _ _

/-- Settles O20: what the P unit releases is fed to the S unit. -/
theorem bitUnderDecFeedsPThenS : Obligations.BitUnderDecFeedsPThenS := by
  intro b g h s hb ho hs hp
  obtain ⟨hout, hwait⟩ := pPush_spec b hp
  obtain ⟨p, n, hset⟩ := pPush_snd b s
  have hs' : SWaiting g (pPush b s).2 := hset ▸ sWaiting_setP hs p n
  refine ⟨_, exec_bit_of_busy (op := .dec) hb ho b, onlyUnitsAndResponse_pushBit .dec b s _ _, ?_, ?_, ?_⟩
  · rw [State.respond_resp, pushBit, sFeed_eq _ _ hs', hout]
  · rw [← hout]
    exact (sWaiting_sFeed s.rom.dec _ hs').respond _ _
  · exact (pWaiting_sFeed _ _ hwait).respond _ _

/-- What an END writes in the units: it clears those its operation flushes (R144). -/
theorem flushUnits_registers (op : Op) (s : State) :
    (flushUnits op s).2 = match op with
      | .ssubf => s.setS 0#4 0#2
      | .ssubi => s.setS 0#4 0#2
      | .pmix => s.setP 0#8 0#3
      | .enc => (s.setS 0#4 0#2).setP 0#8 0#3
      | .dec => (s.setS 0#4 0#2).setP 0#8 0#3 := by
  cases op with
  | dec =>
    obtain ⟨a, c, hfeed⟩ := sFeed_snd s.rom.dec (pFlush s).1 (pFlush s).2
    rw [flushUnits, hfeed]
    rfl
  | _ => rfl

/-- Settles O21: the P unit emits its waiting bits mixed, under DEC into the S unit, and the flushed units are empty. -/
theorem endFlushesTheUnits : Obligations.EndFlushesTheUnits := by
  intro op g h s hb ho hs hp q
  have hq : (flushUnits op s).1 = q := by
    cases op with
    | ssubf => rfl
    | ssubi => rfl
    | pmix => rw [flushUnits, pFlush_eq hp, ← extractLsb'_key]
    | enc => rw [flushUnits, sFlush, pFlush_eq (pWaiting_setS hp 0#4 0#2), State.setS_key, ← extractLsb'_key]
    | dec => rw [flushUnits, pFlush_eq hp, sFeed_eq _ _ (sWaiting_setP hs 0#8 0#3), ← extractLsb'_key]
  refine ⟨_, exec_endCmd_of_busy hb ho, ?_⟩
  rw [hq, flushUnits_registers]
  cases op <;> exact ⟨rfl, ⟨rfl, rfl⟩, ⟨rfl, rfl⟩⟩

/-! ### The words of a list of commands (R52)

No command reads what the host has queued, so a run of the commands is the same with other cycles queued. -/

/-- The state with other cycles queued. -/
def State.withPending (cs : List Cycle) (s : State) : State := { s with pending := cs }

theorem withPending_self {s : State} {cs : List Cycle} (h : s.pending = cs) : s.withPending cs = s := by
  rw [← h]
  rfl

theorem sPush_withPending (cs : List Cycle) (T : STable) (b : Bit) (s : State) :
    sPush T b (s.withPending cs) = Prod.map id (State.withPending cs) (sPush T b s) := by
  unfold sPush
  rw [apply_ite (Prod.map id (State.withPending cs))]
  rfl

theorem pPush_withPending (cs : List Cycle) (b : Bit) (s : State) :
    pPush b (s.withPending cs) = Prod.map id (State.withPending cs) (pPush b s) := by
  unfold pPush
  rw [apply_ite (Prod.map id (State.withPending cs))]
  rfl

theorem sFeed_withPending (cs : List Cycle) (T : STable) (xs : Bits) (s : State) :
    sFeed T xs (s.withPending cs) = Prod.map id (State.withPending cs) (sFeed T xs s) := by
  induction xs generalizing s with
  | nil => rfl
  | cons x xs ih => simp [sFeed, sPush_withPending, ih]

theorem pFeed_withPending (cs : List Cycle) (xs : Bits) (s : State) :
    pFeed xs (s.withPending cs) = Prod.map id (State.withPending cs) (pFeed xs s) := by
  induction xs generalizing s with
  | nil => rfl
  | cons x xs ih => simp [pFeed, pPush_withPending, ih]

theorem pushBit_withPending (cs : List Cycle) (op : Op) (b : Bit) (s : State) :
    pushBit op b (s.withPending cs) = Prod.map id (State.withPending cs) (pushBit op b s) := by
  cases op with
  | ssubf => exact sPush_withPending cs s.rom.enc b s
  | ssubi => exact sPush_withPending cs s.rom.dec b s
  | pmix => exact pPush_withPending cs b s
  | enc =>
    have hfeed := pFeed_withPending cs (sPush s.rom.enc b s).1 (sPush s.rom.enc b s).2
    rw [pushBit, sPush_withPending]
    exact hfeed
  | dec =>
    have hfeed := sFeed_withPending cs s.rom.dec (pPush b s).1 (pPush b s).2
    rw [pushBit, pPush_withPending]
    exact hfeed

theorem flushUnits_withPending (cs : List Cycle) (op : Op) (s : State) :
    flushUnits op (s.withPending cs) = Prod.map id (State.withPending cs) (flushUnits op s) := by
  cases op with
  | dec =>
    have hfeed := sFeed_withPending cs s.rom.dec (pFlush s).1 (pFlush s).2
    exact congrArg (fun r : Bits × State => (r.1, (sFlush r.2).2)) hfeed
  | _ => rfl

theorem exec_start_withPending (cs : List Cycle) (op : Op) (s : State) :
    exec op.start (s.withPending cs) = mapNext (State.withPending cs) (exec op.start s) := by
  rw [exec_start, exec_start, startCommon, startCommon, apply_ite (mapNext (State.withPending cs))]
  rfl

theorem exec_bit_withPending (cs : List Cycle) (b : Bit) (s : State) :
    exec (.bit b) (s.withPending cs) = mapNext (State.withPending cs) (exec (.bit b) s) := by
  cases hb : s.busy with
  | false => rw [exec_bit_of_idle hb, exec_bit_of_idle (s := s.withPending cs) hb]; rfl
  | true =>
    cases ho : opOfCode s.op with
    | none => simp [exec, execBit, dataAccepted_eq, hb, ho, State.withPending]
    | some op =>
      have hop := opCode_of_opOfCode ho
      rw [exec_bit_of_busy hb hop, exec_bit_of_busy (s := s.withPending cs) hb hop, pushBit_withPending]
      rfl

theorem exec_endCmd_withPending (cs : List Cycle) (s : State) :
    exec .endCmd (s.withPending cs) = mapNext (State.withPending cs) (exec .endCmd s) := by
  cases hb : s.busy with
  | false => rw [exec_endCmd_of_idle hb, exec_endCmd_of_idle (s := s.withPending cs) hb]; rfl
  | true =>
    cases ho : opOfCode s.op with
    | none => simp [exec, execEndCmd, dataAccepted_eq, hb, ho, State.withPending]
    | some op =>
      have hop := opCode_of_opOfCode ho
      rw [exec_endCmd_of_busy hb hop, exec_endCmd_of_busy (s := s.withPending cs) hb hop, flushUnits_withPending]
      rfl

theorem exec_withPending (cs : List Cycle) (h : HostCommand) (s : State) :
    exec h.instr (s.withPending cs) = mapNext (State.withPending cs) (exec h.instr s) := by
  cases h with
  | nop => rfl
  | start op key => exact exec_start_withPending cs op s
  | bit b => exact exec_bit_withPending cs b s
  | finish => exact exec_endCmd_withPending cs s

/-- Each word is consumed and runs its command, which neither reads nor writes what is queued behind it (R135). -/
theorem runFor_encoded (hs : List HostCommand) (s : State) :
    runFor hs.length (s.withPending (hs.map HostCommand.cycle ++ s.pending)) = runCommands hs s := by
  induction hs generalizing s with
  | nil => rfl
  | cons h hs ih =>
    have hstep : step (s.withPending ((h :: hs).map HostCommand.cycle ++ s.pending)) =
        mapNext (State.withPending (hs.map HostCommand.cycle ++ s.pending)) (exec h.instr (s.sampleKey h.keyIn)) :=
      (step_of_queued rfl).trans (exec_withPending _ h (s.sampleKey h.keyIn))
    rw [List.length_cons, runFor, hstep, runCommands]
    cases hexec : exec h.instr (s.sampleKey h.keyIn) with
    | next t =>
      obtain ⟨-, hpending, -, -⟩ := exec_next_frame hexec
      rw [State.sampleKey_pending] at hpending
      rw [← hpending]
      exact ih t
    | fault r => rfl
    | refused r => rfl

/-- Settles O4: the rest of the queue is what the commands find queued. -/
theorem encodedStreamRunsItsCommands : Obligations.EncodedStreamRunsItsCommands :=
  fun hs rest s => runFor_encoded hs (s.withPending rest)

/-! ### The shape of a stream (R146) -/

@[simp] theorem withoutNops_nop (hs : List HostCommand) : withoutNops (.nop :: hs) = withoutNops hs := rfl

@[simp] theorem withoutNops_start (op : Op) (key : KeyWord) (hs : List HostCommand) :
    withoutNops (.start op key :: hs) = .start op key :: withoutNops hs := rfl

@[simp] theorem withoutNops_bit (b : Bit) (hs : List HostCommand) :
    withoutNops (.bit b :: hs) = .bit b :: withoutNops hs := rfl

@[simp] theorem withoutNops_finish (hs : List HostCommand) :
    withoutNops (.finish :: hs) = .finish :: withoutNops hs := rfl

/-- The commands of a stream inside a transaction: its BITs, its END, and the transactions behind it. -/
def insideStream (ys : Bits) (trs : List Transaction) : List HostCommand :=
  ys.map .bit ++ .finish :: trs.flatMap Transaction.commands

theorem flatMap_commands_cons (tr : Transaction) (trs : List Transaction) :
    (tr :: trs).flatMap Transaction.commands = .start tr.op tr.key :: insideStream tr.bits trs := by
  simp [Transaction.commands, insideStream]

theorem insideStream_cons (y : Bit) (ys : Bits) (trs : List Transaction) :
    insideStream (y :: ys) trs = .bit y :: insideStream ys trs := rfl

theorem shapeOk_withoutNops (isOpen : Bool) (hs : List HostCommand) :
    shapeOk isOpen (withoutNops hs) = shapeOk isOpen hs := by
  induction hs generalizing isOpen with
  | nil => rfl
  | cons h hs ih =>
    cases h with
    | nop => exact ih isOpen
    | _ => simp [shapeOk, ih]

theorem shapeOk_insideStream (ys : Bits) (trs : List Transaction) :
    shapeOk true (insideStream ys trs) = shapeOk false (trs.flatMap Transaction.commands) := by
  induction ys with
  | nil => rfl
  | cons y ys ih => exact ih

theorem shapeOk_transactions (trs : List Transaction) : shapeOk false (trs.flatMap Transaction.commands) = true := by
  induction trs with
  | nil => rfl
  | cons tr trs ih =>
    rw [flatMap_commands_cons]
    exact (shapeOk_insideStream tr.bits trs).trans ih

/-- Commands in the shape of transactions are transactions: from an idle core whole ones, from a busy one the rest of
the open one first. -/
theorem transactions_of_shapeOk (hs : List HostCommand) :
    (shapeOk false hs = true → ∃ trs : List Transaction, withoutNops hs = trs.flatMap Transaction.commands) ∧
    (shapeOk true hs = true → ∃ ys trs, withoutNops hs = insideStream ys trs) := by
  induction hs with
  | nil => exact ⟨fun _ => ⟨[], rfl⟩, nofun⟩
  | cons h hs ih =>
    obtain ⟨ihIdle, ihOpen⟩ := ih
    cases h with
    | nop => exact ⟨ihIdle, ihOpen⟩
    | start op key =>
      refine ⟨fun hok => ?_, nofun⟩
      obtain ⟨ys, trs, hys⟩ := ihOpen hok
      exact ⟨⟨op, key, ys⟩ :: trs, by rw [withoutNops_start, hys, flatMap_commands_cons]⟩
    | bit b =>
      refine ⟨nofun, fun hok => ?_⟩
      obtain ⟨ys, trs, hys⟩ := ihOpen hok
      exact ⟨b :: ys, trs, by rw [withoutNops_bit, hys, insideStream_cons]⟩
    | finish =>
      refine ⟨nofun, fun hok => ?_⟩
      obtain ⟨trs, htrs⟩ := ihIdle hok
      exact ⟨[], trs, by rw [withoutNops_finish, htrs]; rfl⟩

theorem shapeOk_iff_transactions (hs : List HostCommand) :
    shapeOk false hs = true ↔ ∃ trs : List Transaction, withoutNops hs = trs.flatMap Transaction.commands := by
  refine ⟨(transactions_of_shapeOk hs).1, ?_⟩
  rintro ⟨trs, htrs⟩
  rw [← shapeOk_withoutNops, htrs, shapeOk_transactions]

/-- Settles O37: the check reads the commands that the cycles present, and their shape. -/
theorem wellFormedStreamsAreSequencesOfTransactions : Obligations.WellFormedStreamsAreSequencesOfTransactions := by
  intro cs
  rw [wellFormedStream]
  cases commandsOf cs with
  | none => simp
  | some hs => simp [shapeOk_iff_transactions]

/-! ### A run over the cycles that present a list of commands -/

@[simp] theorem instr_hostCommand (i : Instr) (key : KeyWord) : (hostCommand i key).instr = i := by cases i <;> rfl

@[simp] theorem hostCommand_start (op : Op) (key : KeyWord) : hostCommand op.start key = .start op key := by
  cases op <;> rfl

/-- A first cycle that is part of a stream of commands presents nothing, or the first of them (R135). -/
theorem commandsOf_cons {c : Cycle} {cs : List Cycle} {hs : List HostCommand} (h : commandsOf (c :: cs) = some hs) :
    c.rst = false ∧
      (c.cmdValid = false ∧ commandsOf cs = some hs ∨
        c.cmdValid = true ∧ ∃ i hs', decode c.cw = .ok i ∧ hs = hostCommand i c.keyIn :: hs' ∧
          commandsOf cs = some hs') := by
  rw [commandsOf] at h
  split_ifs at h with hr hv
  · refine ⟨by simpa using hr, .inr ⟨hv, ?_⟩⟩
    split at h
    next i hs' hd hcs => exact ⟨i, hs', hd, (Option.some.inj h).symm, hcs⟩
    next => cases h
  · exact ⟨by simpa using hr, .inl ⟨by simpa using hv, h⟩⟩

/-- What holds of a state and the commands it is to run, cycles without a command keep, and each command keeps for the
commands behind it, holds at the end of a run over cycles that present the commands. -/
theorem runFor_of_commandsOf {P : List HostCommand → State → Prop} {rest : List Cycle}
    (hgap : ∀ {hs s}, P hs s → P hs s.dropCycle.noResponse)
    (hcommand : ∀ {i hs s}, P (hostCommand i s.hostCycle.keyIn :: hs) s → ∃ t, exec i s.atCommand = .next t ∧ P hs t)
    {cs : List Cycle} {hs : List HostCommand} {s : State} (hcs : commandsOf cs = some hs)
    (hpending : s.pending = cs ++ rest) (hP : P hs s) :
    ∃ t, runFor cs.length s = .next t ∧ t.pending = rest ∧ P [] t := by
  induction cs generalizing hs s with
  | nil =>
    cases hcs
    exact ⟨s, rfl, hpending, hP⟩
  | cons c cs ih =>
    have hcycle : s.hostCycle = c := by rw [State.hostCycle, hpending]; rfl
    have htail : s.atCommand.pending = cs ++ rest := atCommand_pending hpending
    subst hcycle
    obtain ⟨hr, ⟨hv, hcs'⟩ | ⟨hv, i, hs', hd, rfl, hcs'⟩⟩ := commandsOf_cons hcs
    · rw [List.length_cons, runFor_succ _ (step_of_no_command hr hv)]
      exact ih hcs' htail (hgap hP)
    · obtain ⟨t, hexec, hP'⟩ := hcommand hP
      obtain ⟨-, hpending', -, -⟩ := exec_next_frame hexec
      rw [List.length_cons, runFor_succ _ ((step_of_legal hr hv hd).trans hexec)]
      exact ih hcs' (hpending'.trans htail) hP'

/-! ### What a stream of transactions still outputs -/

/-- The commands are transactions, or the rest of the open transaction and transactions behind it, and the core outputs
`q` when it runs them (R143 to R146). -/
inductive Expects (s : State) : List HostCommand → Bits → Prop where
  | idle (trs : List Transaction) (hb : s.busy = false) :
      Expects s (trs.flatMap Transaction.commands) (trs.flatMap (Transaction.result s.rom))
  | inside {op : Op} {g h : Bits} (ys : Bits) (trs : List Transaction) (ho : OpenWith op g h s) :
      Expects s (insideStream ys trs)
        (owed s.rom s.key.toNat op g h ys ++ trs.flatMap (Transaction.result s.rom))

/-- What is expected of a core rests on the registers of its units, `OP`, `KEY`, `BUSY` and the tables. -/
theorem Expects.frame {s : State} {hs : List HostCommand} {q : Bits} (h : Expects s hs q) (illop seqerr : Bool)
    (resp : Response) (keyIn : KeyWord) (pending : List Cycle) (sent : List Response) :
    Expects { s with illop := illop, seqerr := seqerr, resp := resp, keyIn := keyIn, pending := pending,
                     sent := sent } hs q := by
  cases h with
  | idle trs hb => exact .idle trs hb
  | inside ys trs ho =>
    obtain ⟨hb, hop, hs, hp⟩ := ho
    exact .inside ys trs ⟨hb, hop, ⟨hs.count, hs.value⟩, ⟨hp.count, hp.value⟩⟩

theorem Expects.nil {s : State} {q : Bits} (h : Expects s [] q) : s.busy = false ∧ q = [] := by
  generalize hnil : ([] : List HostCommand) = hs at h
  cases h with
  | idle trs hb =>
    cases trs with
    | nil => exact ⟨hb, rfl⟩
    | cons tr trs => cases hnil
  | inside ys trs ho => simp [insideStream] at hnil

/-- The command goes on, raises no `SequenceError`, answers `done` just if it is END, and emits the front of `q`; the
rest of `q` is expected of the commands `hs` behind it. -/
def Answers (h : HostCommand) (hs : List HostCommand) (q : Bits) (s : State) : Prop :=
  ∃ t q', exec h.instr s = .next t ∧ t.seqerr = s.seqerr ∧ t.resp.done = decide (h = .finish) ∧
    q = t.resp.bits ++ q' ∧ Expects t hs q'

/-- A START that is expected opens its transaction (R137). -/
theorem Expects.start {s : State} {op : Op} {hs : List HostCommand} {q : Bits}
    (h : Expects s (.start op s.keyIn :: hs) q) : Answers (.start op s.keyIn) hs q s := by
  generalize hcons : HostCommand.start op s.keyIn :: hs = hs' at h
  cases h with
  | inside ys trs ho => cases ys <;> cases hcons
  | idle trs hb =>
    cases trs with
    | nil => cases hcons
    | cons tr trs =>
      obtain ⟨op', key, ys⟩ := tr
      rw [flatMap_commands_cons] at hcons
      cases hcons
      refine ⟨_, _, exec_start_of_idle hb op', rfl, rfl, ?_,
        .inside (g := []) (h := []) ys trs ⟨rfl, rfl, ⟨rfl, rfl⟩, ⟨rfl, rfl⟩⟩⟩
      exact congrArg (· ++ _) (owed_empty s.rom s.keyIn.toNat op' ys).symm

/-- A BIT that is expected emits the front of what the open transaction owes (R143). -/
theorem Expects.bit {s : State} {b : Bit} {hs : List HostCommand} {q : Bits} (h : Expects s (.bit b :: hs) q) :
    Answers (.bit b) hs q s := by
  generalize hcons : HostCommand.bit b :: hs = hs' at h
  cases h with
  | idle trs hb => cases trs <;> cases hcons
  | @inside op g h ys trs ho =>
    cases ys with
    | nil => cases hcons
    | cons y ys =>
      cases hcons
      obtain ⟨g', h', hs', hp', howed⟩ := pushBit_owed (op := op) b ho.sWaiting ho.pWaiting
      obtain ⟨a, c, p, n, hpush⟩ := pushBit_snd op b s
      have hexec := exec_bit_of_open ho b
      rw [hpush] at hexec hs' hp'
      refine ⟨_, _, hexec, rfl, rfl, ?_, .inside ys trs ⟨ho.busy, ho.op, hs'.respond _ _, hp'.respond _ _⟩⟩
      exact (congrArg (· ++ _) (howed ys)).trans (List.append_assoc ..)

/-- An END that is expected emits all that the open transaction owes, and whole transactions follow (R144). -/
theorem Expects.finish {s : State} {hs : List HostCommand} {q : Bits} (h : Expects s (.finish :: hs) q) :
    Answers .finish hs q s := by
  generalize hcons : HostCommand.finish :: hs = hs' at h
  cases h with
  | idle trs hb => cases trs <;> cases hcons
  | @inside op g h ys trs ho =>
    cases ys with
    | cons y ys => cases hcons
    | nil =>
      cases hcons
      obtain ⟨a, c, p, n, hflush⟩ := flushUnits_snd op s
      have hexec := exec_endCmd_of_open ho
      rw [hflush] at hexec
      refine ⟨_, _, hexec, rfl, rfl, ?_, .idle trs rfl⟩
      exact congrArg (· ++ _) (flushUnits_owed ho.sWaiting ho.pWaiting).symm

theorem Expects.command {s : State} {i : Instr} {hs : List HostCommand} {q : Bits}
    (h : Expects s (withoutNops (hostCommand i s.keyIn :: hs)) q) :
    Answers (hostCommand i s.keyIn) (withoutNops hs) q s := by
  cases i with
  | nop => exact ⟨_, _, rfl, rfl, rfl, rfl, h.frame ..⟩
  | startSsubf => exact h.start
  | startSsubi => exact h.start
  | startPmix => exact h.start
  | startEnc => exact h.start
  | startDec => exact h.start
  | bit b => exact h.bit
  | endCmd => exact h.finish

/-! ### Transactions and streams of them (R145, R146) -/

/-- `done` as a list of commands should have it answered: with each END and nothing else (R69). -/
def donePattern (hs : List HostCommand) : List Bool := hs.map fun h => decide (h = .finish)

/-- Where the run of the commands `all` from `s₀`, which is to output `out`, stands when `hs` are left. -/
structure Progress (s₀ : State) (all : List HostCommand) (out : Bits) (hs : List HostCommand) (s : State) : Prop where
  illop : s.illop = s₀.illop
  seqerr : s.seqerr = s₀.seqerr
  answers : ∃ rs q, s.sent = s₀.sent ++ rs ∧ rs.map Response.done ++ donePattern hs = donePattern all ∧
    outputOf rs ++ q = out ∧ Expects s (withoutNops hs) q

theorem Progress.of_expects {s : State} {hs : List HostCommand} {q : Bits} (h : Expects s (withoutNops hs) q) :
    Progress s hs q hs s :=
  ⟨rfl, rfl, [], q, (List.append_nil _).symm, rfl, rfl, h⟩

theorem Progress.noResponse {s₀ s : State} {all hs : List HostCommand} {out : Bits}
    (h : Progress s₀ all out hs s) : Progress s₀ all out hs s.dropCycle.noResponse := by
  obtain ⟨hillop, hseqerr, rs, q, hsent, hdone, hout, hexpects⟩ := h
  exact ⟨hillop, hseqerr, rs, q, hsent, hdone, hout, hexpects.frame ..⟩

theorem Progress.command {s₀ s : State} {all hs : List HostCommand} {out : Bits} {i : Instr}
    (h : Progress s₀ all out (hostCommand i s.hostCycle.keyIn :: hs) s) :
    ∃ t, exec i s.atCommand = .next t ∧ Progress s₀ all out hs t := by
  obtain ⟨hillop, hseqerr, rs, q, hsent, hdone, hout, hexpects⟩ := h
  have hexpects' : Expects s.atCommand _ q := hexpects.frame ..
  obtain ⟨t, q', hexec, hseqerr', hdone', rfl, hrest⟩ := hexpects'.command
  rw [instr_hostCommand] at hexec
  obtain ⟨hillop', -, -, hsent'⟩ := exec_next_frame hexec
  refine ⟨t, hexec, hillop'.trans hillop, hseqerr'.trans hseqerr, rs ++ [t.resp], q', ?_, ?_, ?_, hrest⟩
  · rw [hsent', ← List.append_assoc, ← hsent]
    rfl
  · rw [← hdone, List.map_append, List.append_assoc, List.map_singleton, hdone']
    rfl
  · rw [← hout, outputOf, List.flatMap_append, List.flatMap_singleton, List.append_assoc]
    rfl

/-- The invariant holds, or the core is idle and a START is to come, which brings it about (R137). -/
def InvAhead (hs : List HostCommand) (s : State) : Prop :=
  Inv s ∨ s.busy = false ∧ ∃ op key, HostCommand.start op key ∈ hs

theorem InvAhead.nil {s : State} (h : InvAhead [] s) : Inv s :=
  h.resolve_right fun ⟨_, _, _, hmem⟩ => nomatch hmem

theorem InvAhead.noResponse {hs : List HostCommand} {s : State} (h : InvAhead hs s) :
    InvAhead hs s.dropCycle.noResponse :=
  h.imp_left fun hinv => hinv.frame ..

theorem InvAhead.command {i : Instr} {key : KeyWord} {hs : List HostCommand} {s t : State}
    (h : InvAhead (hostCommand i key :: hs) s) (hexec : exec i s.atCommand = .next t) : InvAhead hs t := by
  rcases h with hinv | ⟨hb, op, key', hmem⟩
  · exact .inl (inv_exec (s := s.atCommand) (hinv.frame ..) hexec)
  · by_cases hstart : ∃ op, i = Op.start op
    · obtain ⟨op, rfl⟩ := hstart
      rw [exec_start_of_idle (s := s.atCommand) hb] at hexec
      rw [← Host.Outcome.next.inj hexec]
      exact .inl ((inv_openTransaction ..).frame ..)
    · have hidle : t.busy = false := by
        rw [← Bool.not_eq_true, exec_next_busy_iff hexec]
        simp [hstart, hb]
      rcases List.mem_cons.mp hmem with heq | htail
      · exact absurd ⟨op, by rw [← instr_hostCommand i key, ← heq]; rfl⟩ hstart
      · exact .inr ⟨hidle, op, key', htail⟩

theorem Progress.finished {s₀ t : State} {all : List HostCommand} {out : Bits} (h : Progress s₀ all out [] t) :
    ∃ rs, t.sent = s₀.sent ++ rs ∧ outputOf rs = out ∧ rs.map Response.done = donePattern all ∧ t.busy = false := by
  obtain ⟨-, -, rs, q, hsent, hdone, hout, hexpects⟩ := h
  obtain ⟨hb, rfl⟩ := hexpects.nil
  exact ⟨rs, hsent, by rw [← hout, List.append_nil], by rw [← hdone]; exact (List.append_nil _).symm, hb⟩

/-- Settles O36: the stream runs to its end, where nothing is left to output. -/
theorem streamComputesEachTransaction : Obligations.StreamComputesEachTransaction := by
  intro trs cs rest hs s hb hpending hcs hshape
  have hexpects : Expects s (withoutNops hs) (trs.flatMap (Transaction.result s.rom)) := by
    rw [hshape]
    exact .idle trs hb
  obtain ⟨t, hrun, hrest, hend⟩ :=
    runFor_of_commandsOf Progress.noResponse Progress.command hcs hpending (.of_expects hexpects)
  obtain ⟨rs, hsent, hout, -, hidle⟩ := hend.finished
  exact ⟨t, rs, hrun, hsent, hout, hend.illop, hend.seqerr, hidle, hrest⟩

/-- Settles O35: the transaction is a stream of one, and its START brings about the invariant, under which an idle core
has empty units (R32(c)). -/
theorem transactionComputesItsFunction : Obligations.TransactionComputesItsFunction := by
  intro tr cs rest hs s hb hpending hcs hshape
  have hexpects : Expects s (withoutNops hs) (tr.result s.rom) := by
    simpa [hshape] using Expects.idle [tr] hb
  have hstart : HostCommand.start tr.op tr.key ∈ withoutNops hs := by
    rw [hshape]
    exact List.mem_cons_self
  obtain ⟨t, hrun, hrest, hend, hinv⟩ := runFor_of_commandsOf
    (P := fun hs' s' => Progress s hs (tr.result s.rom) hs' s' ∧ InvAhead hs' s')
    (fun ⟨hprogress, hinv⟩ => ⟨hprogress.noResponse, hinv.noResponse⟩)
    (fun ⟨hprogress, hinv⟩ =>
      let ⟨t, hexec, hprogress'⟩ := hprogress.command
      ⟨t, hexec, hprogress', hinv.command hexec⟩)
    hcs hpending ⟨.of_expects hexpects, .inr ⟨hb, _, _, List.mem_of_mem_filter hstart⟩⟩
  obtain ⟨rs, hsent, hout, hdone, hidle⟩ := hend.finished
  obtain ⟨hscnt, hpcnt, hsacc, hpacc⟩ := hinv.nil.idleEmpty hidle
  exact ⟨t, rs, hrun, hsent, hout, hdone, hend.illop, hend.seqerr, hidle, hsacc, hscnt, hpacc, hpcnt, hrest⟩

end Sys2Proof.Machine

/-! PROOFS. The statement on spec 44_host_codec.md: the host's codec brings a text of bytes back (R159). It goes character
by character, for the reader takes a run of 8 off the front (R156). -/

namespace Sys2Proof.Machine

/-! ### A text to bits (R155) -/

theorem textToBits_cons (c : Char) (text : List Char) :
    textToBits (c :: text) = n2b (c.toNat % 256) 8 ++ textToBits text := rfl

theorem length_textToBits (text : List Char) : (textToBits text).length = 8 * text.length := by
  induction text with
  | nil => rfl
  | cons c text ih =>
    rw [textToBits_cons, List.length_append, length_n2b, ih, List.length_cons]
    omega

/-! ### Bits to a text, run by run (R156) -/

theorem byteAt_group_zero (g rest : Bits) (hg : g.length = 8) : byteAt (g ++ rest) 0 = b2n g := by
  rw [byteAt, Nat.mul_zero, Nat.zero_add, slice_append_left _ _ _ _ hg.ge, slice, List.drop_zero, Nat.sub_zero, ← hg,
    List.take_length]

theorem byteAt_group_succ (g rest : Bits) (hg : g.length = 8) (j : Nat) :
    byteAt (g ++ rest) (j + 1) = byteAt rest j := by
  have hcut : 8 * (j + 1) = g.length + 8 * j := by omega
  rw [byteAt, byteAt, hcut, Nat.add_assoc, slice_append_right]

theorem bitsToText_short (valid : Nat → Bool) (bits : Bits) (h : bits.length < 8) : bitsToText valid bits = .ok [] := by
  rw [bitsToText, Nat.div_eq_of_lt h]
  rfl

/-- A valid run of 8 at the front puts its character in front; what the rest gives, an error too, stays. -/
theorem bitsToText_group (valid : Nat → Bool) (g rest : Bits) (hg : g.length = 8) (hvalid : valid (b2n g) = true) :
    bitsToText valid (g ++ rest) = (bitsToText valid rest).map (Char.ofNat (b2n g) :: ·) := by
  have hruns : (g ++ rest).length / 8 = rest.length / 8 + 1 := by rw [List.length_append]; omega
  rw [bitsToText, hruns, List.range_succ_eq_map, List.foldr_cons, List.foldr_map, byteAt_group_zero g rest hg, hvalid]
  simp only [Nat.succ_eq_add_one, byteAt_group_succ g rest hg]
  rw [← bitsToText]
  cases bitsToText valid rest <;> rfl

/-! ### The round trip (R159) -/

/-- A character of one byte is not truncated (R155), so its run of 8 reads back as it. -/
theorem bitsToText_textToBits_cons (valid : Nat → Bool) (c : Char) (text : List Char) (extra : Bits)
    (hbyte : c.toNat < 256) (hvalid : valid c.toNat = true) :
    bitsToText valid (textToBits (c :: text) ++ extra) = (bitsToText valid (textToBits text ++ extra)).map (c :: ·) := by
  have hrun : b2n (n2b (c.toNat % 256) 8) = c.toNat := by
    rw [Nat.mod_eq_of_lt hbyte, b2n_n2b_mod]
    exact Nat.mod_eq_of_lt hbyte
  rw [textToBits_cons, List.append_assoc, bitsToText_group valid _ _ (length_n2b _ 8) (by rwa [hrun]), hrun,
    Char.ofNat_toNat]

theorem bitsToText_textToBits (valid : Nat → Bool) (text : List Char) (extra : Bits)
    (htext : ∀ c ∈ text, c.toNat < 256 ∧ valid c.toNat = true) (hextra : extra.length < 8) :
    bitsToText valid (textToBits text ++ extra) = .ok text := by
  induction text with
  | nil => exact bitsToText_short valid extra hextra
  | cons c text ih =>
    obtain ⟨⟨hbyte, hvalid⟩, hrest⟩ := List.forall_mem_cons.mp htext
    rw [bitsToText_textToBits_cons valid c text extra hbyte hvalid, ih hrest]
    rfl

/-- Settles O56: the text comes back character by character, and each character is 8 bits. -/
theorem textRoundTrip : Obligations.TextRoundTrip :=
  fun valid text extra htext hextra => ⟨bitsToText_textToBits valid text extra htext hextra, length_textToBits text⟩

end Sys2Proof.Machine

/-! PROOFS. The statements on spec 60_exceptions.md: what raises each of the two faults and what it does (R171, R172,
R176), that the flags stand until reset (R174, R178), that no fault stops the core (R173), and that cores side by side
share nothing (R182). -/

namespace Sys2Proof.Machine

/-! ### A command out of sequence (R172) -/

/-- A command that the core refuses in the state: a START while busy, a BIT or an END while idle (R172). -/
def OutOfSequence (i : Instr) (s : State) : Prop :=
  (∃ op, i = Op.start op) ∧ s.busy = true ∨ ((∃ b, i = .bit b) ∨ i = .endCmd) ∧ s.busy = false

@[simp] theorem start_ne_bit (op : Op) (b : Bit) : op.start ≠ Instr.bit b := (bit_ne_start b op).symm

theorem exec_start_of_busy {s : State} (hb : s.busy = true) (op : Op) :
    exec op.start s = .next (s.raise .sequenceError) := by
  simp [exec_start, startCommon, startAccepted_eq, hb]

theorem exec_of_outOfSequence {i : Instr} {s : State} (h : OutOfSequence i s) :
    exec i s = .next (s.raise .sequenceError) := by
  rcases h with ⟨⟨op, rfl⟩, hb⟩ | ⟨⟨b, rfl⟩ | rfl, hb⟩
  · exact exec_start_of_busy hb op
  · exact exec_bit_of_idle hb b
  · exact exec_endCmd_of_idle hb

/-- A command raises `SEQERR` exactly if it is refused. -/
theorem exec_next_seqerr_iff {i : Instr} {s t : State} (h : exec i s = .next t) :
    t.seqerr = true ↔ s.seqerr = true ∨ OutOfSequence i s := by
  rcases exec_next_cases h with
    ⟨rfl, rfl⟩ | ⟨hseq, rfl⟩ | ⟨op, rfl, hb, rfl⟩ | ⟨b, op, rfl, hb, -, rfl⟩ | ⟨op, rfl, hb, -, rfl⟩
  · simp [OutOfSequence]
  · exact iff_of_true rfl (.inr hseq)
  · simp [OutOfSequence, hb]
  · obtain ⟨a, c, p, n, hpush⟩ := pushBit_snd op b s
    simp [OutOfSequence, hb, hpush]
  · obtain ⟨a, c, p, n, hflush⟩ := flushUnits_snd op s
    simp [OutOfSequence, hb, hflush]

/-! ### When a step raises a flag (R171, R172, R176) -/

@[simp] theorem atCommand_illop (s : State) : s.atCommand.illop = s.illop := rfl
@[simp] theorem atCommand_seqerr (s : State) : s.atCommand.seqerr = s.seqerr := rfl

theorem legalWord_eq_false_iff_error {w : CommandWord} : legalWord w = false ↔ ∃ e, decode w = .error e := by
  rw [← Bool.not_eq_true, legalWord_iff_decodes]
  cases decode w <;> simp

theorem step_next_illop_iff {s t : State} (hstep : step s = .next t) (hr : s.hostCycle.rst = false) :
    t.illop = true ↔ s.illop = true ∨ s.hostCycle.cmdValid = true ∧ ∃ e, decode s.hostCycle.cw = .error e := by
  rcases step_next_cases hstep with ⟨hr', -⟩ | ⟨-, hv, rfl⟩ | ⟨-, hv, hd, rfl⟩ | ⟨-, hv, i, hd, hexec⟩
  · simp [hr] at hr'
  · simp [hv]
  · simp [hv, hd]
  · obtain ⟨hillop, -⟩ := exec_next_frame hexec
    simp [hillop, hd]

theorem step_next_seqerr_iff {s t : State} (hstep : step s = .next t) (hr : s.hostCycle.rst = false) :
    t.seqerr = true ↔ s.seqerr = true ∨
      s.hostCycle.cmdValid = true ∧ ∃ i, decode s.hostCycle.cw = .ok i ∧ OutOfSequence i s := by
  rcases step_next_cases hstep with
    ⟨hr', -⟩ | ⟨-, hv, rfl⟩ | ⟨-, hv, ⟨e, hd⟩, rfl⟩ | ⟨-, hv, i, hd, hexec⟩
  · simp [hr] at hr'
  · simp [hv]
  · simp [hd]
  · have hseqerr : t.seqerr = true ↔ s.seqerr = true ∨ OutOfSequence i s :=
      exec_next_seqerr_iff (s := s.atCommand) hexec
    simp [hv, hd, hseqerr]

/-- The decode check parts the two faults (R176): the word of a refused command is legal. -/
theorem step_next_not_both_rise {s t : State} (hstep : step s = .next t) :
    ¬((s.illop = false ∧ t.illop = true) ∧ (s.seqerr = false ∧ t.seqerr = true)) := by
  rintro ⟨⟨hillop, hillop'⟩, hseqerr, hseqerr'⟩
  cases hr : s.hostCycle.rst with
  | true =>
    rw [step_of_reset hr] at hstep
    simp [← Host.Outcome.next.inj hstep] at hillop'
  | false =>
    obtain ⟨-, e, herror⟩ := ((step_next_illop_iff hstep hr).mp hillop').resolve_left (Bool.eq_false_iff.mp hillop)
    obtain ⟨-, i, hok, -⟩ := ((step_next_seqerr_iff hstep hr).mp hseqerr').resolve_left
      (Bool.eq_false_iff.mp hseqerr)
    simp [herror] at hok

/-- Settles O11: a refused command only raises `SEQERR`, and the flag of a step without reset is up if it was. -/
theorem outOfSequenceCommandSetsSeqerrOnly : Obligations.OutOfSequenceCommandSetsSeqerrOnly := by
  refine ⟨fun i s => exec_of_outOfSequence, fun s t hstep hup hr => ?_, fun s t hexec => ?_⟩
  · exact (step_next_seqerr_iff hstep hr).mpr (.inl hup)
  · rw [← Host.Outcome.next.inj hexec]
    rfl

/-- Settles O12: an illegal word only raises `ILLOP`, and the flag of a step without reset is up if it was. -/
theorem illegalWordSetsIllopOnly : Obligations.IllegalWordSetsIllopOnly := by
  refine ⟨?_, fun s t hstep hup hr => (step_next_illop_iff hstep hr).mpr (.inl hup)⟩
  rintro s cw e ⟨hr, hv, rfl⟩ hd
  exact ⟨_, step_of_illegal hr hv hd, rfl, rfl⟩

/-- Settles O14: reset first, then what each flag of a step without reset is. -/
theorem eachFlagRisesExactlyOnItsFault : Obligations.EachFlagRisesExactlyOnItsFault := by
  intro s t hstep
  refine ⟨fun hr => ?_, fun hr => ⟨?_, ?_⟩, step_next_not_both_rise hstep⟩
  · rw [step_of_reset hr] at hstep
    simp [← Host.Outcome.next.inj hstep]
  · rw [legalWord_eq_false_iff_error]
    exact step_next_illop_iff hstep hr
  · rw [step_next_seqerr_iff hstep hr]
    cases decode s.hostCycle.cw <;> simp [OutOfSequence]

/-! ### A fault stands until reset (R174, R178) -/

theorem step_next_pending {s t : State} (hstep : step s = .next t) : t.pending = s.pending.tail := by
  rcases step_next_cases hstep with ⟨-, rfl⟩ | ⟨-, -, rfl⟩ | ⟨-, -, -, rfl⟩ | ⟨-, -, i, -, hexec⟩
  · rfl
  · rfl
  · rfl
  · obtain ⟨-, hpending, -⟩ := exec_next_frame hexec
    exact hpending

/-- A host that has no reset queued among its next cycles drives none now, and with an empty queue it never does. -/
theorem hostCycle_rst_of_take {n : Nat} {s : State} (h : ∀ c ∈ s.pending.take (n + 1), c.rst = false) :
    s.hostCycle.rst = false ∧ ∀ c ∈ s.pending.tail.take n, c.rst = false := by
  cases hq : s.pending with
  | nil => simp [State.hostCycle, hq, Cycle.idle]
  | cons c cs => simpa [State.hostCycle, hq] using h

theorem step_next_faulted {s t : State} (hstep : step s = .next t) (hr : s.hostCycle.rst = false)
    (hf : s.faulted = true) : t.faulted = true := by
  rw [State.faulted, Bool.or_eq_true] at hf ⊢
  exact hf.imp (fun h => (step_next_illop_iff hstep hr).mpr (.inl h))
    (fun h => (step_next_seqerr_iff hstep hr).mpr (.inl h))

theorem runFor_succ_next {n : Nat} {s t : State} (h : runFor (n + 1) s = .next t) :
    ∃ u, step s = .next u ∧ runFor n u = .next t := by
  cases hstep : step s with
  | next u => exact ⟨u, rfl, (runFor_succ n hstep).symm.trans h⟩
  | fault r => simp [runFor, hstep] at h
  | refused r => simp [runFor, hstep] at h

theorem runFor_next_faulted {n : Nat} {s t : State} (hq : ∀ c ∈ s.pending.take n, c.rst = false)
    (hrun : runFor n s = .next t) (hf : s.faulted = true) : t.faulted = true := by
  induction n generalizing s with
  | zero => exact Host.Outcome.next.inj hrun ▸ hf
  | succ n ih =>
    obtain ⟨u, hstep, hrest⟩ := runFor_succ_next hrun
    obtain ⟨hr, hq'⟩ := hostCycle_rst_of_take hq
    exact ih (step_next_pending hstep ▸ hq') hrest (step_next_faulted hstep hr hf)

/-- Settles O16: every step without reset keeps a flag that is up, and a state with one is not final. -/
theorem faultedStateIsNeverFinalBeforeReset : Obligations.FaultedStateIsNeverFinalBeforeReset := by
  intro n s t hq hrun hf
  have hft := runFor_next_faulted hq hrun hf
  exact ⟨hft, by simp [State.final, hft]⟩

/-! ### No fault stops the core (R173, R174) -/

theorem exec_start_answers (op : Op) (s : State) : ∃ t, exec op.start s = .next t := by
  cases hb : s.busy with
  | false => exact ⟨_, exec_start_of_idle hb op⟩
  | true => exact ⟨_, exec_start_of_busy hb op⟩

/-- Any command answers a next state when `OP` holds the code of an operation (R25). -/
theorem exec_answers {op : Op} {s : State} (hop : s.op = opCode op) (i : Instr) : ∃ t, exec i s = .next t := by
  cases i with
  | nop => exact ⟨_, rfl⟩
  | startSsubf => exact exec_start_answers .ssubf s
  | startSsubi => exact exec_start_answers .ssubi s
  | startPmix => exact exec_start_answers .pmix s
  | startEnc => exact exec_start_answers .enc s
  | startDec => exact exec_start_answers .dec s
  | bit b =>
    cases hb : s.busy with
    | false => exact ⟨_, exec_bit_of_idle hb b⟩
    | true => exact ⟨_, exec_bit_of_busy hb hop b⟩
  | endCmd =>
    cases hb : s.busy with
    | false => exact ⟨_, exec_endCmd_of_idle hb⟩
    | true => exact ⟨_, exec_endCmd_of_busy hb hop⟩

/-- Settles O28: only a command could stop the step, and the invariant has the code of an operation in `OP` (R32(d)). -/
theorem noStepStopsUnderTheInvariant : Obligations.NoStepStopsUnderTheInvariant := by
  intro s h
  obtain ⟨op, hop⟩ := Option.isSome_iff_exists.mp h.opLegal
  rcases step_cases s with ⟨-, hs⟩ | ⟨-, -, hs⟩ | ⟨-, -, e, -, hs⟩ | ⟨-, -, i, -, hs⟩
  · exact ⟨_, hs⟩
  · exact ⟨_, hs⟩
  · exact ⟨_, hs⟩
  · rw [hs]
    exact exec_answers (s := s.atCommand) (opCode_of_opOfCode hop) i

/-! ### Cores side by side share nothing (R54, R182) -/

/-- A step of core `k` is a step of its state, and leaves the others where they stand. -/
theorem stepInstance_next {k : Nat} {cores cores' : List State} (h : stepInstance k cores = .next cores') :
    cores'.length = cores.length ∧ (∀ j, j ≠ k → cores'[j]? = cores[j]?) ∧
      ∀ s, cores[k]? = some s → ∃ u, cores'[k]? = some u ∧ step s = .next u := by
  cases hk : cores[k]? with
  | none =>
    obtain rfl : cores = cores' := by simpa [stepInstance, hk] using h
    simp
  | some s =>
    cases hstep : step s with
    | next u =>
      obtain rfl : cores.set k u = cores' := by simpa [stepInstance, hk, hstep] using h
      obtain ⟨hlt, -⟩ := List.getElem?_eq_some_iff.mp hk
      refine ⟨List.length_set, fun j hj => List.getElem?_set_ne hj.symm, ?_⟩
      rintro _ ⟨rfl⟩
      exact ⟨u, List.getElem?_set_self hlt, hstep⟩
    | fault r => simp [stepInstance, hk, hstep] at h
    | refused r => simp [stepInstance, hk, hstep] at h

theorem runSchedule_cons_next {k : Nat} {ks : List Nat} {cores cores' : List State}
    (h : runSchedule (k :: ks) cores = .next cores') :
    ∃ mid, stepInstance k cores = .next mid ∧ runSchedule ks mid = .next cores' := by
  cases hk : stepInstance k cores with
  | next mid => exact ⟨mid, rfl, by simpa [runSchedule, hk] using h⟩
  | fault r => simp [runSchedule, hk] at h
  | refused r => simp [runSchedule, hk] at h

/-- Settles O34, by induction on the schedule: its first step is the core's own first step, or leaves it alone. -/
theorem instancesRunIndependently : Obligations.InstancesRunIndependently := by
  intro schedule cores cores' h
  induction schedule generalizing cores with
  | nil =>
    obtain rfl : cores = cores' := Host.Outcome.next.inj h
    exact ⟨rfl, fun k s hs => ⟨s, hs, rfl⟩⟩
  | cons j ks ih =>
    obtain ⟨mid, hfirst, hrest⟩ := runSchedule_cons_next h
    obtain ⟨hlen, hothers, hown⟩ := stepInstance_next hfirst
    obtain ⟨hlen', hrun⟩ := ih mid hrest
    refine ⟨hlen'.trans hlen, fun k s hs => ?_⟩
    by_cases hk : k = j
    · subst hk
      obtain ⟨u, hu, hstep⟩ := hown s hs
      rw [List.count_cons_self, runFor_succ _ hstep]
      exact hrun k u hu
    · rw [List.count_cons_of_ne (Ne.symm hk)]
      exact hrun k s ((hothers k hk).trans hs)

end Sys2Proof.Machine

/-! PROOFS. The statements on spec 70_reset_and_hazards.md: what reset does and that only it clears a fault flag (R195),
a reset inside a transaction (R196), and the group-boundary hazard (R200). -/

namespace Sys2Proof.Machine

/-! ### Reset (R195) -/

theorem State.reset_outPins : State.reset.outPins =
    { outValid := false, outBits := 0#8, outCnt := 0#4, outDone := false, status := 0#3 } := by decide

/-- Settles O8: reset comes before all else, and a step without it keeps a flag that is up. -/
theorem resetClearsEveryRegister : Obligations.ResetClearsEveryRegister := by
  refine ⟨fun s hr => ?_, fun s t hstep hcleared => ?_⟩
  · exact ⟨_, step_of_reset hr, rfl, rfl, rfl, rfl, rfl, rfl, rfl, rfl, rfl, State.reset_outPins, rfl, rfl, rfl⟩
  · by_contra hr
    rw [Bool.not_eq_true] at hr
    rcases hcleared with ⟨hup, hdown⟩ | ⟨hup, hdown⟩
    · exact absurd ((step_next_illop_iff hstep hr).mpr (.inl hup)) (Bool.eq_false_iff.mp hdown)
    · exact absurd ((step_next_seqerr_iff hstep hr).mpr (.inl hup)) (Bool.eq_false_iff.mp hdown)

/-! ### A reset inside a transaction (R196) -/

/-- The step of a queued reset leaves the reset values, the tables and the responses given (R195). -/
theorem step_of_queued_reset {s : State} {rest : List Cycle} (h : s.pending = Cycle.reset :: rest) :
    step s = .next { State.reset with rom := s.rom, keyIn := s.keyIn, pending := rest, sent := s.sent } := by
  have hcycle : s.hostCycle = Cycle.reset := by rw [State.hostCycle, h]; rfl
  have hrest : s.dropCycle.pending = rest := congrArg List.tail h
  rw [step_of_reset (by rw [hcycle]; rfl), ← hrest]
  rfl

/-- The commands `front` of a stream run as they do in the whole stream, whatever stands behind them. -/
theorem progress_of_front {s : State} {front back : List HostCommand} {out : Bits} {rest : List Cycle}
    (h : Expects s (withoutNops (front ++ back)) out) (hpending : s.pending = front.map HostCommand.cycle ++ rest) :
    ∃ t, runFor front.length s = .next t ∧ t.pending = rest ∧ Progress s (front ++ back) out back t := by
  have hrun := runFor_of_commandsOf (P := fun hs => Progress s (front ++ back) out (hs ++ back))
    Progress.noResponse Progress.command (commandsOf_map_cycle front) hpending (.of_expects h)
  rwa [List.length_map] at hrun

/-- What was answered to the front of a stream is a prefix of the stream's output, and without an END there is no
`done` in it. -/
theorem Progress.front {s t : State} {front back : List HostCommand} {out : Bits}
    (h : Progress s (front ++ back) out back t) (hfinish : HostCommand.finish ∉ front) :
    ∃ rs, t.sent = s.sent ++ rs ∧ outputOf rs <+: out ∧ ∀ r ∈ rs, r.done = false := by
  obtain ⟨-, -, rs, q, hsent, hdone, hout, -⟩ := h
  rw [donePattern, donePattern, List.map_append] at hdone
  refine ⟨rs, hsent, ⟨q, hout⟩, fun r hr => ?_⟩
  have hmem : r.done ∈ front.map fun c => decide (c = .finish) :=
    List.append_cancel_right hdone ▸ List.mem_map_of_mem hr
  obtain ⟨c, hc, hcdone⟩ := List.mem_map.mp hmem
  rw [← hcdone, decide_eq_false_iff_not]
  exact fun hend => hfinish (hend ▸ hc)

/-- A transaction's commands cut behind some of its BITs. -/
theorem commands_cut (op : Op) (key : KeyWord) (front back : Bits) :
    ({ op := op, key := key, bits := front ++ back } : Transaction).commands =
      (.start op key :: front.map .bit) ++ (back.map .bit ++ [.finish]) := by
  simp [Transaction.commands]

theorem withoutNops_commands (tr : Transaction) : withoutNops tr.commands = tr.commands := by
  refine List.filter_eq_self.mpr fun c hc => ?_
  rw [Transaction.commands, List.mem_cons, List.mem_append, List.mem_map, List.mem_singleton] at hc
  rcases hc with rfl | ⟨b, -, rfl⟩ | rfl <;> rfl

/-- An idle core is to output what a transaction computes (R145). -/
theorem expects_transaction {s : State} (hb : s.busy = false) (tr : Transaction) :
    Expects s (withoutNops tr.commands) (tr.result s.rom) := by
  simpa [withoutNops_commands] using Expects.idle [tr] hb

/-- Settles O38: START and the BITs before the reset are the front of the transaction that would have gone on. -/
theorem resetMidTransactionLeavesAPrefix : Obligations.ResetMidTransactionLeavesAPrefix := by
  intro op key front back rest s hb hpending
  have hexpects := expects_transaction hb { op := op, key := key, bits := front ++ back }
  rw [commands_cut] at hexpects
  obtain ⟨t, hrun, hrest, hprogress⟩ := progress_of_front hexpects hpending
  obtain ⟨rs, hsent, hprefix, hdone⟩ := hprogress.front (by simp)
  obtain ⟨hrom, -⟩ := tablesAreReadOnly
  rw [List.length_cons, List.length_map] at hrun
  have hreset := (runFor_add 1 hrun).trans (runFor_succ 0 (step_of_queued_reset hrest))
  rw [hrom _ _ _ hrun] at hreset
  exact ⟨_, rs, hreset, hsent, hprefix, hdone, rfl⟩

/-! ### The group-boundary hazard (R200) -/

/-- A sequence cut between groups of 8 is encoded part by part (R43). -/
theorem spnEncode_append {a : Bits} (ha : a.length % 8 = 0) (rom : Tables) (b : Bits) (key : Nat) :
    spnEncode rom (a ++ b) key = spnEncode rom a key ++ spnEncode rom b key := by
  rw [spnEncode, applySBlock_append (by omega), applyPBlock_append (by rw [length_applySBlock]; omega), ← spnEncode,
    ← spnEncode]

theorem exists_n2b_nibble {g : Bits} (hg : g.length = 4) : ∃ v : Nibble, g = n2b v.toNat 4 :=
  ⟨_, (n2b_ofNat_b2n hg).symm⟩

theorem n2b_nibble_injective : Function.Injective fun v : Nibble => n2b v.toNat 4 :=
  Function.LeftInverse.injective (g := fun g : Bits => BitVec.ofNat 4 (b2n g)) ofNat_b2n_n2b

/-- A nibble on its own meets the low nibble of the mask, and in front of another nibble the high one (R117). -/
theorem spnEncode_nibble_eq_take_iff (rom : Tables) {g t : Bits} (key : Nat) (hg : g.length = 4) (ht : 4 ≤ t.length) :
    spnEncode rom g key = (spnEncode rom (g ++ t) key).take 4 ↔
      (keyMask key).extractLsb' 4 4 = (keyMask key).extractLsb' 0 4 := by
  obtain ⟨v, rfl⟩ := exists_n2b_nibble hg
  obtain ⟨w, hw⟩ := exists_n2b_nibble (List.length_take_of_le ht)
  obtain ⟨-, hbyte, hnibble⟩ := shapeOfEncode rom (t.drop 4) key
  rw [← List.take_append_drop 4 t, hw, ← List.append_assoc, hbyte, hnibble, List.append_assoc,
    List.take_left' (length_n2b _ 4), n2b_nibble_injective.eq_iff, BitVec.xor_right_inj, eq_comm]

/-- Settles O55: the first 8 bits are encoded alike, so the hazard is that of the last nibble. -/
theorem groupBoundaryHazard : Obligations.GroupBoundaryHazard := by
  intro rom s t key hs ht
  have hbyte : (s.take 8).length = 8 := List.length_take_of_le (by omega)
  have hnibble : (s.drop 8).length = 4 := by rw [List.length_drop, hs]
  have hout : (spnEncode rom (s.take 8) key).length = 8 := by rw [length_spnEncode, hbyte]
  have haligned : (s.take 8).length % 8 = 0 := by rw [hbyte]
  calc spnEncode rom s key = (spnEncode rom (s ++ t) key).take 12
      ↔ spnEncode rom (s.take 8) key ++ spnEncode rom (s.drop 8) key =
          spnEncode rom (s.take 8) key ++ (spnEncode rom (s.drop 8 ++ t) key).take 4 := by
        rw [← spnEncode_append haligned, List.take_append_drop, ← List.take_length_add_append, hout,
          ← spnEncode_append haligned, ← List.append_assoc, List.take_append_drop]
    _ ↔ (keyMask key).extractLsb' 4 4 = (keyMask key).extractLsb' 0 4 := by
        rw [List.append_cancel_left_eq, spnEncode_nibble_eq_take_iff rom key hnibble ht]

end Sys2Proof.Machine
